-- ==== Sys2Proof/Word.lean ====
section
/-! DEFINITION. The words of the block: bytes, 16-bit storage atoms, 32-bit values and 64-bit command words. -/

namespace Sys2Proof

/-- A byte of `BYTES_OUT` or of `LOAD_BYTE` (10_state.md R28). -/
abbrev Byte := BitVec 8

/-- One 16-bit storage atom (00_scope.md R5). -/
abbrev Atom := BitVec 16

/-- A 32-bit unsigned word: `COUNT` (00_scope.md R7) and `VAL` of a response (10_state.md R27). -/
abbrev Word := BitVec 32

/-- One 64-bit command word (30_encoding.md R60), delivered whole, with no byte order (10_state.md R26). -/
abbrev CommandWord := BitVec 64

end Sys2Proof
end

