-- ==== Sys2Proof/Syntax.lean ====
section
/-! DEFINITION. The nine commands of the block, as the assembler writes them (30_encoding.md R67 and R73). -/

namespace Sys2Proof

/-- One command. An operand is "the plain unsigned value of its field" (30_encoding.md R66), so it is a number; `Instr.WellFormed` says that it fits
its field. An operand that fits its field but is out of the command's legal range is a command all the same: the machine answers it with a fault. -/
inductive Instr where
  /-- `APPEND_BIT b`: append one bit (40_append.md R80). -/
  | appendBit (b : Nat)
  /-- `APPEND_BITS v, n`: append the `n` most significant bits of the 16-bit `v` (40_append.md R81). -/
  | appendBits (v n : Nat)
  /-- `PEEK_BIT i`: read the bit at offset `i` (41_peek.md R90). -/
  | peekBit (i : Nat)
  /-- `PEEK i, n`: read `n` bits starting at offset `i` (41_peek.md R91). -/
  | peek (i n : Nat)
  /-- `SERIALIZE`: emit the stream as stuffed bytes (42_serialize.md R100). -/
  | serialize
  /-- `CLEAR`: make the stream empty (43_control.md R110). -/
  | clear
  /-- `LOAD_BYTE b`: append the 8 bits of a byte (43_control.md R111). -/
  | loadByte (b : Nat)
  /-- `GET_COUNT`: read the logical bit count (43_control.md R112). -/
  | getCount
  /-- `GET_STATUS`: read the status register (43_control.md R113). -/
  | getStatus
deriving DecidableEq, Repr

end Sys2Proof
end

