-- ==== Sys2Proof/WellFormed.lean ====
section
/-! DEFINITION. When a command can be encoded: every operand fits its field (30_encoding.md R63 to R65; the assembler's refusals of R73). -/

namespace Sys2Proof

/-- A value of the 16-bit field `DATA`: "The assembler refuses ... `v` or `b` above 0xFFFF" (30_encoding.md R73). -/
abbrev FitsData (v : Nat) : Prop := v ≤ 0xFFFF

/-- A value of the 5-bit field `CNT`: "The assembler refuses ... `n` above 31" (30_encoding.md R73). -/
abbrev FitsCnt (n : Nat) : Prop := n ≤ 31

/-- A value of the 32-bit field `OFF`: "The assembler refuses ... `i` above 0xFFFF_FFFF" (30_encoding.md R73). -/
abbrev FitsOff (i : Nat) : Prop := i ≤ 0xFFFFFFFF

/-- Every operand of the command fits its field. -/
def Instr.wellFormed : Instr → Bool
  | .appendBit b => decide (FitsData b)
  | .appendBits v n => decide (FitsData v) && decide (FitsCnt n)
  | .peekBit i => decide (FitsOff i)
  | .peek i n => decide (FitsOff i) && decide (FitsCnt n)
  | .serialize => true
  | .clear => true
  | .loadByte b => decide (FitsData b)
  | .getCount => true
  | .getStatus => true

/-- `Instr.wellFormed` as a proposition. -/
abbrev Instr.WellFormed (i : Instr) : Prop := i.wellFormed = true

end Sys2Proof
end

