-- ==== Sys2Proof/Decode.lean ====
section
/-! DEFINITION. The command word: its fields, the opcode map, decoding (total on every 64-bit word) and encoding (30_encoding.md sections 1 and 2). -/

namespace Sys2Proof

/-- The five fields of a command word (30_encoding.md R60). -/
structure Fields where
  /-- `OP = word[63:60]` (R61). -/
  op : BitVec 4
  /-- `RSV = word[59:53]` (R62). -/
  rsv : BitVec 7
  /-- `CNT = word[52:48]` (R63). -/
  cnt : BitVec 5
  /-- `DATA = word[47:32]` (R64). -/
  data : BitVec 16
  /-- `OFF = word[31:0]` (R65). -/
  off : BitVec 32
deriving DecidableEq, Repr

/-- The fields of a word (30_encoding.md R60). -/
def fieldsOf (w : CommandWord) : Fields where
  op := w.extractLsb' 60 4
  rsv := w.extractLsb' 53 7
  cnt := w.extractLsb' 48 5
  data := w.extractLsb' 32 16
  off := w.extractLsb' 0 32

/-- The word of five fields, most significant first (30_encoding.md R60). -/
def wordOf (f : Fields) : CommandWord := f.op ++ f.rsv ++ f.cnt ++ f.data ++ f.off

/-- The nine defined opcodes (30_encoding.md R67). -/
inductive Opcode where
  | appendBit | appendBits | peekBit | peek | serialize | clear | loadByte | getCount | getStatus
deriving DecidableEq, Repr

/-- The opcode a value of `OP` names; 0x0 and 0xA to 0xF are reserved and name none (30_encoding.md R67 and R68). -/
def opcodeOf (op : BitVec 4) : Option Opcode :=
  match op.toNat with
  | 1 => some .appendBit
  | 2 => some .appendBits
  | 3 => some .peekBit
  | 4 => some .peek
  | 5 => some .serialize
  | 6 => some .clear
  | 7 => some .loadByte
  | 8 => some .getCount
  | 9 => some .getStatus
  | _ => none

/-- The value of `OP` that names an opcode (30_encoding.md R67). -/
def opField : Opcode → BitVec 4
  | .appendBit => 0x1
  | .appendBits => 0x2
  | .peekBit => 0x3
  | .peek => 0x4
  | .serialize => 0x5
  | .clear => 0x6
  | .loadByte => 0x7
  | .getCount => 0x8
  | .getStatus => 0x9

/-- The commands that read `CNT` (the `CNT` column of 30_encoding.md R67). -/
def readsCnt : Opcode → Bool
  | .appendBit => false
  | .appendBits => true
  | .peekBit => false
  | .peek => true
  | .serialize => false
  | .clear => false
  | .loadByte => false
  | .getCount => false
  | .getStatus => false

/-- The commands that read `DATA` (the `DATA` column of 30_encoding.md R67). -/
def readsData : Opcode → Bool
  | .appendBit => true
  | .appendBits => true
  | .peekBit => false
  | .peek => false
  | .serialize => false
  | .clear => false
  | .loadByte => true
  | .getCount => false
  | .getStatus => false

/-- The commands that read `OFF` (the `OFF` column of 30_encoding.md R67). -/
def readsOff : Opcode → Bool
  | .appendBit => false
  | .appendBits => false
  | .peekBit => true
  | .peek => true
  | .serialize => false
  | .clear => false
  | .loadByte => false
  | .getCount => false
  | .getStatus => false

/-- A field that the command does not read is nonzero (30_encoding.md R69). -/
def unusedFieldSet (o : Opcode) (f : Fields) : Bool :=
  (!readsCnt o && f.cnt != 0) || (!readsData o && f.data != 0) || (!readsOff o && f.off != 0)

/-- The command of an opcode with the operands its fields hold (30_encoding.md R66 and R67). -/
def instrOf (o : Opcode) (f : Fields) : Instr :=
  match o with
  | .appendBit => .appendBit f.data.toNat
  | .appendBits => .appendBits f.data.toNat f.cnt.toNat
  | .peekBit => .peekBit f.off.toNat
  | .peek => .peek f.off.toNat f.cnt.toNat
  | .serialize => .serialize
  | .clear => .clear
  | .loadByte => .loadByte f.data.toNat
  | .getCount => .getCount
  | .getStatus => .getStatus

/-- Why a word is no command (30_encoding.md R72). -/
inductive DecodeError where
  /-- `OP` is reserved (30_encoding.md R68). -/
  | illegalOpcode
  /-- `RSV`, or a field the command does not read, is nonzero (30_encoding.md R62 and R69). -/
  | reservedField
deriving DecidableEq, Repr

/-- The command a word holds, or why it holds none, checked in the order of 30_encoding.md R72. -/
def decode (w : CommandWord) : Except DecodeError Instr :=
  let f := fieldsOf w
  match opcodeOf f.op with
  | none => .error .illegalOpcode
  | some o =>
    if f.rsv ≠ 0 then .error .reservedField
    else if unusedFieldSet o f then .error .reservedField
    else .ok (instrOf o f)

/-- The opcode of a command (30_encoding.md R67). -/
def opcodeFor : Instr → Opcode
  | .appendBit _ => .appendBit
  | .appendBits _ _ => .appendBits
  | .peekBit _ => .peekBit
  | .peek _ _ => .peek
  | .serialize => .serialize
  | .clear => .clear
  | .loadByte _ => .loadByte
  | .getCount => .getCount
  | .getStatus => .getStatus

/-- The value of `CNT` in a command's word: "Every field not named is 0" (30_encoding.md R73). -/
def cntFor : Instr → Nat
  | .appendBits _ n => n
  | .peek _ n => n
  | .appendBit _ => 0
  | .peekBit _ => 0
  | .serialize => 0
  | .clear => 0
  | .loadByte _ => 0
  | .getCount => 0
  | .getStatus => 0

/-- The value of `DATA` in a command's word (30_encoding.md R73). -/
def dataFor : Instr → Nat
  | .appendBit b => b
  | .appendBits v _ => v
  | .loadByte b => b
  | .peekBit _ => 0
  | .peek _ _ => 0
  | .serialize => 0
  | .clear => 0
  | .getCount => 0
  | .getStatus => 0

/-- The value of `OFF` in a command's word (30_encoding.md R73). -/
def offFor : Instr → Nat
  | .peekBit i => i
  | .peek i _ => i
  | .appendBit _ => 0
  | .appendBits _ _ => 0
  | .serialize => 0
  | .clear => 0
  | .loadByte _ => 0
  | .getCount => 0
  | .getStatus => 0

/-- The fields of a command's word (30_encoding.md R73). -/
def fieldsFor (i : Instr) : Fields where
  op := opField (opcodeFor i)
  rsv := 0
  cnt := BitVec.ofNat 5 (cntFor i)
  data := BitVec.ofNat 16 (dataFor i)
  off := BitVec.ofNat 32 (offFor i)

/-- The word of a well-formed command (30_encoding.md R60 and R73). -/
def encode (i : Instr) : CommandWord := wordOf (fieldsFor i)

/-- The `mask` of an opcode's row of spec/opcode_table.json: `OP`, `RSV` and every field that must be zero. -/
def rowMask : Opcode → CommandWord
  | .appendBit => 0xFFFF0000FFFFFFFF
  | .appendBits => 0xFFE00000FFFFFFFF
  | .peekBit => 0xFFFFFFFF00000000
  | .peek => 0xFFE0FFFF00000000
  | .serialize => 0xFFFFFFFFFFFFFFFF
  | .clear => 0xFFFFFFFFFFFFFFFF
  | .loadByte => 0xFFFF0000FFFFFFFF
  | .getCount => 0xFFFFFFFFFFFFFFFF
  | .getStatus => 0xFFFFFFFFFFFFFFFF

/-- The `match` of an opcode's row of spec/opcode_table.json. -/
def rowMatch : Opcode → CommandWord
  | .appendBit => 0x1000000000000000
  | .appendBits => 0x2000000000000000
  | .peekBit => 0x3000000000000000
  | .peek => 0x4000000000000000
  | .serialize => 0x5000000000000000
  | .clear => 0x6000000000000000
  | .loadByte => 0x7000000000000000
  | .getCount => 0x8000000000000000
  | .getStatus => 0x9000000000000000

/-- "A word matches one of its rows when `(word & mask) == match`" (30_encoding.md, opening). -/
abbrev MatchesRow (w : CommandWord) (o : Opcode) : Prop := w &&& rowMask o = rowMatch o

/-- The command in the table's own numbering of an instruction's bits: the one word is delivered whole, so bit `k` of `w` is bit `k` of the word, and every bit above `nbits` is 0. -/
def decodeTableWord (nbits w : Nat) : Option Instr :=
  match decode (BitVec.ofNat 64 (w % 2 ^ nbits)) with
  | .ok i => some i
  | .error _ => none

end Sys2Proof
end

