-- ==== Sys2Proof/Config.lean ====
section
/-! DEFINITION. The configuration parameters of the block (00_scope.md section 3): what the builder fixes and no command changes. -/

namespace Sys2Proof

/-- The open parameter of the block (00_scope.md R6). -/
structure Config where
  /-- `CAP_BITS`, the storage capacity in bits. -/
  capBits : Nat
deriving DecidableEq, Repr

/-- The legal values of `CAP_BITS`: "multiples of 16 with `16 <= CAP_BITS <= 0xFFFF_FFF0`" (00_scope.md R6). -/
abbrev Config.Legal (c : Config) : Prop :=
  16 ≤ c.capBits ∧ c.capBits ≤ 0xFFFFFFF0 ∧ c.capBits % 16 = 0

/-- `N_ATOMS = CAP_BITS / 16`, the number of storage atoms (00_scope.md R6). -/
def Config.nAtoms (c : Config) : Nat := c.capBits / 16

/-- `ESC_BYTE`, fixed at build time (00_scope.md R9). -/
def Config.escByte : Byte := 0xFF#8

/-- `ESC_SEQ`, the two bytes that stand for an escaped byte, fixed at build time (00_scope.md R9). -/
def Config.escSeq : Byte × Byte := (0xFF#8, 0x00#8)

end Sys2Proof
end

