-- ==== Sys2Proof/Machine/State.lean ====
section
/-! DEFINITION. The state of the block and of its ports, as plain data, and the state right after reset (10_state.md). -/

namespace Sys2Proof.Machine

/-- The four fault causes (10_state.md R25; 60_exceptions.md R121 to R124). Codes 5 to 7 never occur, so they cannot be written down. -/
inductive FaultCause where
  /-- Cause 1: `OP` is reserved (60_exceptions.md R121). -/
  | illegalOpcode
  /-- Cause 2: `RSV`, or a field the command does not read, is nonzero (60_exceptions.md R122). -/
  | reservedField
  /-- Cause 3: an operand is outside its legal range (60_exceptions.md R123). -/
  | operandRange
  /-- Cause 4: an append would exceed `CAP_BITS` (60_exceptions.md R124). -/
  | capacityOverflow
deriving DecidableEq, Repr

/-- The status register `STATUS` (10_state.md R25): `CAUSE` is nonzero exactly when `FAULTED` is 1, so the register is one of these.
`Status.word` gives its 8 bits. -/
inductive Status where
  /-- `FAULTED = 0` and `CAUSE = 0`. -/
  | running
  /-- `FAULTED = 1` and `CAUSE` the code of the first fault. -/
  | faulted (cause : FaultCause)
deriving DecidableEq, Repr

/-- A response on the port `RESP` (10_state.md R27). `TAG` 3 is never produced, so it cannot be written down. -/
inductive Response where
  /-- `TAG = 0`, `VAL = 0`. -/
  | ok
  /-- `TAG = 1`, `VAL` the command's result zero-extended to 32 bits. -/
  | value (val : Word)
  /-- `TAG = 2`, `VAL` the fault cause code. -/
  | fault (cause : FaultCause)
deriving DecidableEq, Repr

/-- What the block produces, in order: "each response `(TAG, VAL)` and each byte on `BYTES_OUT`" (10_state.md R34). -/
inductive Event where
  /-- A byte on `BYTES_OUT` (10_state.md R28). -/
  | byte (b : Byte)
  /-- A response on `RESP` (10_state.md R27). -/
  | resp (r : Response)
deriving DecidableEq, Repr

/-- What the host may do to the block (70_reset_and_hazards.md R151). -/
inductive HostMove where
  /-- Issue one command word on `CMD` (10_state.md R26): any word, legal or not. -/
  | command (w : CommandWord)
  /-- Assert `RST` between two commands (10_state.md R29; 70_reset_and_hazards.md R140). -/
  | reset
deriving DecidableEq, Repr

/-- The storage as a list of (address, byte) cells: byte `k` holds the bit offsets `8k .. 8k+7`, first bit most significant, so atom `j` is byte
`2j` followed by byte `2j+1` (DESIGN CHOICE, log entry 2: no response depends on it, 20_memory.md R40). The canonical form is `Memory.WF`. -/
abbrev Memory := List Host.Cell

/-- The state of the block, `(ATOM, COUNT, STATUS)` (10_state.md R30 and R34), with its configuration and its ports. -/
structure State where
  /-- The configuration; no step writes it (00_scope.md R6; 70_reset_and_hazards.md R151). -/
  config : Config
  /-- `ATOM[0 .. N_ATOMS-1]` (10_state.md R22), read and written through `State.atom` and `State.setAtom`. -/
  mem : Memory
  /-- `COUNT`, the logical bit count (10_state.md R24). -/
  count : Word
  /-- `STATUS` (10_state.md R25). -/
  status : Status
  /-- What the host has sent and the block has not yet taken, oldest first (10_state.md R26, R29 and R33; log entry 3). -/
  pending : List HostMove
  /-- What the block has produced, oldest first: the observation of a run (10_state.md R34; log entry 4). -/
  events : List Event
deriving DecidableEq, Repr

/-- Why the machine stops with a fault: never. A fault of this block is a response and a sticky status, after which the block goes on answering
(60_exceptions.md R120 and R126), and "No command can hang the block" (70_reset_and_hazards.md R150). So this type has no constructor, no one raises one, and nothing is unsafe. -/
inductive Fault where
deriving DecidableEq, Repr

/-- Why the machine refuses to give a command a meaning. -/
inductive Refusal where
  /-- An arm of `exec` whose command has no meaning yet; safe. Every command has its meaning, so no one raises it. -/
  | notModelled (mnemonic : String)
deriving DecidableEq, Repr

/-- The state right after reset of a block built with a given configuration (10_state.md R30; 70_reset_and_hazards.md R140): every atom `0xFFFF`, so nothing is listed,
`COUNT = 0`, `STATUS = 0`, and nothing issued or produced yet. -/
def State.resetWith (c : Config) : State where
  config := c
  mem := []
  count := 0
  status := .running
  pending := []
  events := []

/-- The machine right after reset, built with `CAP_BITS = 64` (DESIGN CHOICE, log entry 1: the spec leaves `CAP_BITS` open, and 64 is the value of its test vectors). -/
def State.reset : State := State.resetWith { capBits := 64 }

end Sys2Proof.Machine
end

