-- ==== Sys2Proof/Machine/Flags.lean ====
section
/-! DEFINITION. The status register and the response as the words the host reads. The block has no flags and no condition codes (10_state.md R31): its one status
bit is `STATUS.FAULTED`. -/

namespace Sys2Proof.Machine

/-- The cause codes 1 to 4 (10_state.md R25). -/
def FaultCause.code : FaultCause → BitVec 3
  | .illegalOpcode => 1
  | .reservedField => 2
  | .operandRange => 3
  | .capacityOverflow => 4

/-- `STATUS.FAULTED`, bit 0 (10_state.md R25). -/
def Status.faultedBit : Status → BitVec 1
  | .running => 0
  | .faulted _ => 1

/-- `STATUS.CAUSE`, bits 3:1; 0 where there is no fault (10_state.md R25). -/
def Status.causeField : Status → BitVec 3
  | .running => 0
  | .faulted c => c.code

/-- The register `STATUS` as 8 bits, `{0000, CAUSE, FAULTED}` (10_state.md R25; 43_control.md R113). -/
def Status.word (s : Status) : Byte := 0#4 ++ s.causeField ++ s.faultedBit

/-- `TAG` of a response (10_state.md R27). -/
def Response.tag : Response → BitVec 2
  | .ok => 0
  | .value _ => 1
  | .fault _ => 2

/-- `VAL` of a response (10_state.md R27). -/
def Response.val : Response → Word
  | .ok => 0
  | .value v => v
  | .fault c => c.code.setWidth 32

end Sys2Proof.Machine
end

