-- ==== Sys2Proof/Machine/Operands.lean ====
section
/-! DEFINITION. The operand forms: their legal ranges (60_exceptions.md R123) and the left-justified 16-bit value each append stores. -/

namespace Sys2Proof.Machine

/-- `APPEND_BIT` takes a bit: `DATA` is 0 or 1 (40_append.md R80). -/
abbrev BitInRange (b : Nat) : Prop := b ≤ 1

/-- `APPEND_BITS` takes 1 to 16 bits (40_append.md R81). -/
abbrev AppendCountInRange (n : Nat) : Prop := 1 ≤ n ∧ n ≤ 16

/-- `PEEK` reads 0 to 16 bits (41_peek.md R91). -/
abbrev PeekCountInRange (n : Nat) : Prop := n ≤ 16

/-- `LOAD_BYTE` takes a byte: `DATA` is 0 to 255 (43_control.md R111). -/
abbrev ByteInRange (b : Nat) : Prop := b ≤ 0xFF

/-- The value `APPEND_BIT` stores, `DATA[0] << 15` (40_append.md R80). -/
def bitValue (b : Nat) : BitVec 16 := (BitVec.ofNat 1 b).setWidth 16 <<< 15

/-- The value `APPEND_BITS` stores, `DATA` (40_append.md R81). -/
def bitsValue (v : Nat) : BitVec 16 := BitVec.ofNat 16 v

/-- The value `LOAD_BYTE` stores, `DATA[7:0] << 8` (43_control.md R111). -/
def byteValue (b : Nat) : BitVec 16 := (BitVec.ofNat 8 b).setWidth 16 <<< 8

end Sys2Proof.Machine
end

