-- ==== Sys2Proof/Machine/Ops.lean ====
section
/-! DEFINITION. The named operations over storage, `COUNT`, `STATUS` and the ports: the pseudocode primitives of 00_scope.md R11, taking a fault (60_exceptions.md R120),
the faulted state (60_exceptions.md R126) and the reset event (70_reset_and_hazards.md R140). -/

namespace Sys2Proof.Machine

/-! ### Storage bytes -/

/-- What an unlisted byte reads as: the reset contents, every bit 1 (70_reset_and_hazards.md R140). -/
def Memory.blank : Byte := 0xFF#8

/-- The byte at an address. -/
def Memory.read : Memory → Nat → Byte
  | [], _ => Memory.blank
  | c :: m, a => if c.1 = a then c.2 else Memory.read m a

/-- The memory with nothing listed at an address. -/
def Memory.erase (m : Memory) (a : Nat) : Memory := m.filter (fun c => decide (c.1 ≠ a))

/-- The memory with one more cell, in front of the first higher address. -/
def Memory.insert : Memory → Nat → Byte → Memory
  | [], a, v => [(a, v)]
  | c :: m, a, v => if a < c.1 then (a, v) :: c :: m else c :: Memory.insert m a v

/-- The memory with a byte written; writing what an unlisted byte reads as lists nothing. -/
def Memory.write (m : Memory) (a : Nat) (v : Byte) : Memory :=
  if v = Memory.blank then Memory.erase m a else Memory.insert (Memory.erase m a) a v

/-- The canonical form: addresses strictly rise and no cell holds what an unlisted byte reads as. -/
abbrev Memory.WF (m : Memory) : Prop :=
  m.Pairwise (fun c d => c.1 < d.1) ∧ ∀ c ∈ m, c.2 ≠ Memory.blank

/-! ### Atoms and bits -/

/-- `ATOM[j]`: byte `2j` is its bits 15:8 and byte `2j+1` its bits 7:0. -/
def State.atom (s : State) (j : Nat) : Atom :=
  Memory.read s.mem (2 * j) ++ Memory.read s.mem (2 * j + 1)

/-- `ATOM[j] <- v`. -/
def State.setAtom (s : State) (j : Nat) (v : Atom) : State :=
  { s with mem := Memory.write (Memory.write s.mem (2 * j) (v.extractLsb' 8 8)) (2 * j + 1) (v.extractLsb' 0 8) }

/-- An atom with bit `k` replaced by `b`. -/
def withBit (x : Atom) (k : Nat) (b : Bool) : Atom :=
  if b then x ||| (1#16 <<< k) else x &&& ~~~(1#16 <<< k)

/-- The bit stored for offset `i`, `ATOM[i >> 4][15 - (i & 15)]` (20_memory.md R40). -/
def State.storedBit (s : State) (i : Nat) : Bool := (s.atom (i / 16)).getLsbD (15 - i % 16)

/-- `ATOM[i >> 4][15 - (i & 15)] <- b` (20_memory.md R40). -/
def State.storeBit (s : State) (i : Nat) (b : Bool) : State :=
  s.setAtom (i / 16) (withBit (s.atom (i / 16)) (15 - i % 16) b)

/-- `Bit(i)`: the stored bit below `COUNT`, and 1 at and beyond it (20_memory.md R41). -/
def State.bit (s : State) (i : Nat) : Bool := if i < s.count.toNat then s.storedBit i else true

/-- `Bit'(j)`: `Bit(j)` inside the 32-bit offset space and 1 beyond its top (20_memory.md R42 and R48). -/
def State.bitNoWrap (s : State) (j : Nat) : Bool := if j ≤ 0xFFFFFFFF then s.bit j else true

/-- `MemRead(i, n)`: `n` bits starting at offset `i`, the first one most significant, right-justified (20_memory.md R42). -/
def State.memRead (s : State) (i : Nat) : Nat → BitVec 16
  | 0 => 0
  | n + 1 => (State.memRead s i n).shiftConcat (s.bitNoWrap (i + n))

/-- `MemWrite(i, n, v)`: the `n` most significant bits of `v` at offsets `i .. i+n-1`, `v[15]` first (20_memory.md R43). -/
def State.memWrite (s : State) (i : Nat) (v : BitVec 16) : Nat → State
  | 0 => s
  | n + 1 => (State.memWrite s i v n).storeBit (i + n) (v.getLsbD (15 - n))

/-- `COUNT <- n`. -/
def State.setCount (s : State) (n : Nat) : State := { s with count := BitVec.ofNat 32 n }

/-- Every atom `<- 0xFFFF`: nothing is listed (43_control.md R110). -/
def State.clearAtoms (s : State) : State := { s with mem := [] }

/-! ### Ports -/

/-- `Emit(b)`: a byte on `BYTES_OUT` (10_state.md R28). -/
def State.emit (s : State) (b : Byte) : State := { s with events := s.events ++ [.byte b] }

/-- `Emit` of each byte of a list, in order. -/
def State.emitAll (s : State) : List Byte → State
  | [] => s
  | b :: bs => (s.emit b).emitAll bs

/-- `Respond(tag, val)`: the command's one response on `RESP` (10_state.md R27). -/
def State.respond (s : State) (r : Response) : State := { s with events := s.events ++ [.resp r] }

/-! ### Faults and reset -/

/-- The cause a word that is no command raises (60_exceptions.md R121 and R122). -/
def causeOf : DecodeError → FaultCause
  | .illegalOpcode => .illegalOpcode
  | .reservedField => .reservedField

/-- `raise Fault(c)`, taking a fault (60_exceptions.md R120): `FAULTED` and `CAUSE` are written if the block is not yet faulted, and the response is `FAULT` with `CAUSE`.
While the block is faulted this is also the answer of 60_exceptions.md R126. -/
def State.raiseFault (s : State) (c : FaultCause) : State :=
  match s.status with
  | .running => State.respond { s with status := .faulted c } (.fault c)
  | .faulted first => s.respond (.fault first)

/-- A command's pseudocode runs "only while `STATUS.FAULTED = 0`" (40_append.md, opening); while faulted, the block answers `FAULT(CAUSE)` and does nothing else
(60_exceptions.md R126). `k` is the state the pseudocode leaves. -/
def State.whileRunning (s : State) (k : State) : State :=
  match s.status with
  | .running => k
  | .faulted first => s.respond (.fault first)

/-- What every append does once its operand is legal (40_append.md R80 to R83): the capacity check, exact and without wrap, then the `n` most significant bits of `v` at
`COUNT`, `COUNT` advanced by `n`, and `OK`. -/
def State.append (s : State) (n : Nat) (v : BitVec 16) : State :=
  if s.count.toNat + n ≤ s.config.capBits then
    ((s.memWrite s.count.toNat v n).setCount (s.count.toNat + n)).respond .ok
  else s.raiseFault .capacityOverflow

/-- The reset event: every atom `0xFFFF`, `COUNT` 0 and `STATUS` 0; no response and no byte (70_reset_and_hazards.md R140). It is the one return from the faulted state
(60_exceptions.md R130). -/
def State.applyReset (s : State) : State := { s with mem := [], count := 0, status := .running }

end Sys2Proof.Machine
end

