-- ==== Sys2Proof/Machine/Append.lean ====
section
/-! DEFINITION. The append commands (40_append.md). -/

namespace Sys2Proof.Machine

/-- `APPEND_BIT b` (40_append.md R80). -/
def execAppendBit (b : Nat) (s : State) : Host.Outcome State Fault Refusal :=
  .next (s.whileRunning (if BitInRange b then s.append 1 (bitValue b) else s.raiseFault .operandRange))

/-- `APPEND_BITS v, n` (40_append.md R81). -/
def execAppendBits (v n : Nat) (s : State) : Host.Outcome State Fault Refusal :=
  .next (s.whileRunning (if AppendCountInRange n then s.append n (bitsValue v) else s.raiseFault .operandRange))

end Sys2Proof.Machine
end

