-- ==== Sys2Proof/Machine/Control.lean ====
section
/-! DEFINITION. The construction, loading and bookkeeping commands (43_control.md). -/

namespace Sys2Proof.Machine

/-- `CLEAR` (43_control.md R110): the stream becomes empty; `STATUS` is not written. -/
def execClear (s : State) : Host.Outcome State Fault Refusal :=
  .next (s.whileRunning ((s.clearAtoms.setCount 0).respond .ok))

/-- `LOAD_BYTE b` (43_control.md R111). -/
def execLoadByte (b : Nat) (s : State) : Host.Outcome State Fault Refusal :=
  .next (s.whileRunning (if ByteInRange b then s.append 8 (byteValue b) else s.raiseFault .operandRange))

/-- `GET_COUNT` (43_control.md R112). -/
def execGetCount (s : State) : Host.Outcome State Fault Refusal :=
  .next (s.whileRunning (s.respond (.value s.count)))

/-- `GET_STATUS` (43_control.md R113): the one command that executes while the block is faulted (60_exceptions.md R126). -/
def execGetStatus (s : State) : Host.Outcome State Fault Refusal :=
  .next (s.respond (.value (s.status.word.setWidth 32)))

end Sys2Proof.Machine
end

