-- ==== Sys2Proof/Machine/Peek.lean ====
section
/-! DEFINITION. The peek commands (41_peek.md). -/

namespace Sys2Proof.Machine

/-- `PEEK_BIT i` (41_peek.md R90). -/
def execPeekBit (i : Nat) (s : State) : Host.Outcome State Fault Refusal :=
  .next (s.whileRunning (s.respond (.value ((BitVec.ofBool (s.bit i)).setWidth 32))))

/-- `PEEK i, n` (41_peek.md R91). -/
def execPeek (i n : Nat) (s : State) : Host.Outcome State Fault Refusal :=
  .next (s.whileRunning
    (if PeekCountInRange n then s.respond (.value ((s.memRead i n).setWidth 32)) else s.raiseFault .operandRange))

end Sys2Proof.Machine
end

