-- ==== Sys2Proof/Machine/Serialize.lean ====
section
/-! DEFINITION. The byte-stuffing serializer (42_serialize.md). -/

namespace Sys2Proof.Machine

/-- `NBYTES = ceil(COUNT / 8)` (42_serialize.md R100). -/
def State.byteCount (s : State) : Nat := (s.count.toNat + 7) / 8

/-- Serialized byte `k` before stuffing, `{Bit(8k), ..., Bit(8k+7)}` with `Bit(8k)` its bit 7 (20_memory.md R44). -/
def State.streamByte (s : State) (k : Nat) : Byte :=
  BitVec.ofBoolListBE
    [s.bit (8 * k), s.bit (8 * k + 1), s.bit (8 * k + 2), s.bit (8 * k + 3),
     s.bit (8 * k + 4), s.bit (8 * k + 5), s.bit (8 * k + 6), s.bit (8 * k + 7)]

/-- The unstuffed bytes `U` of the stream, in increasing index (42_serialize.md R102 and R104). -/
def State.streamBytes (s : State) : List Byte := (List.range s.byteCount).map s.streamByte

/-- What one byte is emitted as: `ESC_SEQ` for `ESC_BYTE`, any other byte as it is (42_serialize.md R100). -/
def stuffByte (b : Byte) : List Byte :=
  if b = Config.escByte then [Config.escSeq.1, Config.escSeq.2] else [b]

/-- What a list of bytes is emitted as (42_serialize.md R100 and R103). -/
def stuff (bs : List Byte) : List Byte := bs.flatMap stuffByte

/-- `SERIALIZE` (42_serialize.md R100): every byte before the response. -/
def execSerialize (s : State) : Host.Outcome State Fault Refusal :=
  .next (s.whileRunning ((s.emitAll (stuff s.streamBytes)).respond .ok))

end Sys2Proof.Machine
end

