-- ==== Sys2Proof/Machine/Dispatch.lean ====
section
/-! DEFINITION. One arm per command: its meaning (30_encoding.md R67). -/

namespace Sys2Proof.Machine

def exec (i : Instr) (s : State) : Host.Outcome State Fault Refusal :=
  match i with
  | .appendBit b => Sys2Proof.Machine.execAppendBit b s
  | .appendBits v n => Sys2Proof.Machine.execAppendBits v n s
  | .peekBit o => Sys2Proof.Machine.execPeekBit o s
  | .peek o n => Sys2Proof.Machine.execPeek o n s
  | .serialize => Sys2Proof.Machine.execSerialize s
  | .clear => Sys2Proof.Machine.execClear s
  | .loadByte b => Sys2Proof.Machine.execLoadByte b s
  | .getCount => Sys2Proof.Machine.execGetCount s
  | .getStatus => Sys2Proof.Machine.execGetStatus s

end Sys2Proof.Machine
end

