-- ==== Sys2Proof/Machine/Fetch.lean ====
section
/-! DEFINITION. Taking the host's next move from the ports `CMD` and `RST` and carrying it out (10_state.md R26 and R29). The block fetches no instructions of its own (10_state.md R20). -/

namespace Sys2Proof.Machine

/-- The host's next move and the state with that move taken; none where the host has sent nothing. "The block takes commands in the order the host issues them" (10_state.md R26). -/
def State.takeMove (s : State) : Option (HostMove × State) :=
  match s.pending with
  | [] => none
  | m :: rest => some (m, { s with pending := rest })

/-- The state in which a move is the very next one taken. -/
def State.putMove (s : State) (m : HostMove) : State := { s with pending := m :: s.pending }

/-- The command word whose bits the opcode table numbers: bit `k` of `w` is bit `k` of the word, and every bit above `nbits` is 0. -/
def tableWord (nbits w : Nat) : CommandWord := BitVec.ofNat 64 (w % 2 ^ nbits)

/-- What a command word does: its command is executed, or the fault of a word that is no command is taken (30_encoding.md R72; 60_exceptions.md R120). While the block is faulted the
fault's answer is `FAULT(CAUSE)` whatever the word's own cause (60_exceptions.md R126). -/
def runWord (w : CommandWord) (s : State) : Host.Outcome State Fault Refusal :=
  match decode w with
  | .error e => .next (s.raiseFault (causeOf e))
  | .ok i => exec i s

/-- What a move of the host does: a reset is the reset event (70_reset_and_hazards.md R140), a command word is run. -/
def runMove (m : HostMove) (s : State) : Host.Outcome State Fault Refusal :=
  match m with
  | .reset => .next s.applyReset
  | .command w => runWord w s

end Sys2Proof.Machine
end

