-- ==== Sys2Proof/Machine/Step.lean ====
section
/-! DEFINITION. One step of the block: it takes the host's next move and finishes it (00_scope.md R12; 10_state.md R26). -/

namespace Sys2Proof.Machine

/-- One step. With no move waiting the block is "idle with all state held" (60_exceptions.md R137), and the step is idle too (log entry 3, DEDUCED). -/
def step (s : State) : Host.Outcome State Fault Refusal :=
  match s.takeMove with
  | none => .next s
  | some (m, s') => runMove m s'

/-- `s` with one command word put where the block takes its next command: at the front of what the host has sent. -/
def State.withFetchWord (s : State) (nbits w : Nat) : State := s.putMove (.command (tableWord nbits w))

end Sys2Proof.Machine
end

