-- ==== Sys2Proof/Machine/Assembler.lean ====
section
/-! DEFINITION. The spec's assembler: its operand checks and encodings (30_encoding.md R73), its pseudo-instructions (R74) and its text. It feeds the command port; it is no part of the block. -/

namespace Sys2Proof.Machine

/-- One line of assembly: a command, or a pseudo-instruction (30_encoding.md R73 and R74). -/
inductive AsmLine where
  /-- A command with its operands. -/
  | command (i : Instr)
  /-- `LOOKAHEAD i`. -/
  | lookahead (i : Nat)
  /-- `APPEND_CODE bits, len`. -/
  | appendCode (bits len : Nat)
  /-- `FROM_BYTES b0, b1, ..., bk`. -/
  | fromBytes (bs : List Nat)
  /-- `APPEND_ONES n` with `1 <= n <= 16`. -/
  | appendOnes (n : Nat)
  /-- `APPEND_ZEROS n` with `1 <= n <= 16`. -/
  | appendZeros (n : Nat)
deriving DecidableEq, Repr

/-- The commands a line stands for; the expansions are those of 30_encoding.md R74. Refusing a pseudo-instruction whose own bound is broken is a DESIGN CHOICE (log entry 12). -/
def expandLine : AsmLine → Option (List Instr)
  | .command i => some [i]
  | .lookahead i => some [.peek i 16]
  | .appendCode bits len => some [.appendBits bits len]
  | .fromBytes bs => some (.clear :: bs.map .loadByte)
  | .appendOnes n => if 1 ≤ n ∧ n ≤ 16 then some [.appendBits 0xFFFF n] else none
  | .appendZeros n => if 1 ≤ n ∧ n ≤ 16 then some [.appendBits 0x0000 n] else none

/-- The word of a command; refused where an operand does not fit its field. An operand that fits but is out of the command's legal range is accepted, "so that a fault can be written down"
(30_encoding.md R73). -/
def assembleInstr (i : Instr) : Option CommandWord := if i.wellFormed then some (encode i) else none

/-- The words of a list of commands, all or none. -/
def assembleInstrs : List Instr → Option (List CommandWord)
  | [] => some []
  | i :: is =>
    match assembleInstr i, assembleInstrs is with
    | some w, some ws => some (w :: ws)
    | _, _ => none

/-- The words of a line. -/
def assembleLine (l : AsmLine) : Option (List CommandWord) :=
  match expandLine l with
  | some is => assembleInstrs is
  | none => none

/-! ### The text of a line -/

/-- A blank character: space, tab or carriage return. 30_encoding.md R73 does not say which characters are blanks: DESIGN CHOICE (log entry 12). -/
def isBlank (c : Char) : Bool := c = ' ' || c = '\t' || c = '\r'

/-- A text without the blanks at its two ends. That blanks are skipped is a DESIGN CHOICE (log entry 12). -/
def trim (cs : List Char) : List Char := ((cs.dropWhile isBlank).reverse.dropWhile isBlank).reverse

/-- The value of a digit, decimal or hexadecimal; letters of either case: DESIGN CHOICE (log entry 12). -/
def digitValue (c : Char) : Option Nat :=
  if '0' ≤ c ∧ c ≤ '9' then some (c.toNat - '0'.toNat)
  else if 'a' ≤ c ∧ c ≤ 'f' then some (c.toNat - 'a'.toNat + 10)
  else if 'A' ≤ c ∧ c ≤ 'F' then some (c.toNat - 'A'.toNat + 10)
  else none

/-- The number a run of digits writes in a base, continuing from `acc`. -/
def digitsValue (base acc : Nat) : List Char → Option Nat
  | [] => some acc
  | c :: cs =>
    match digitValue c with
    | some d => if d < base then digitsValue base (base * acc + d) cs else none
    | none => none

/-- A number: "decimal, or hexadecimal with `0x`" (30_encoding.md R73). Leading zeros, a lower-case `x` only, at least one digit, no sign and no `_` are a DESIGN CHOICE (log entry 12). -/
def numberOf : List Char → Option Nat
  | '0' :: 'x' :: c :: cs => digitsValue 16 0 (c :: cs)
  | c :: cs => digitsValue 10 0 (c :: cs)
  | [] => none

/-- A text cut at every occurrence of a character. -/
def cutAt (sep : Char) : List Char → List (List Char)
  | [] => [[]]
  | c :: cs =>
    if c = sep then [] :: cutAt sep cs
    else
      match cutAt sep cs with
      | [] => [[c]]
      | p :: ps => (c :: p) :: ps

/-- Every number of a list of texts, or none if one of them is no number. -/
def numbersOf : List (List Char) → Option (List Nat)
  | [] => some []
  | p :: ps =>
    match numberOf (trim p), numbersOf ps with
    | some n, some ns => some (n :: ns)
    | _, _ => none

/-- The operands after a mnemonic, "separated by commas"; none at all where there is no text. Refusing an empty operand is a DESIGN CHOICE (log entry 12). -/
def operandsOf (cs : List Char) : Option (List Nat) :=
  match trim cs with
  | [] => some []
  | c :: t => numbersOf (cutAt ',' (c :: t))

/-- The line of a mnemonic and its operands (30_encoding.md R73 and R74). Letter case, and refusing an unknown mnemonic or another number of operands, are a DESIGN CHOICE (log entry 12). -/
def lineOf (mnemonic : String) (operands : List Nat) : Option AsmLine :=
  if mnemonic = "APPEND_BIT" then match operands with | [b] => some (.command (.appendBit b)) | _ => none
  else if mnemonic = "APPEND_BITS" then match operands with | [v, n] => some (.command (.appendBits v n)) | _ => none
  else if mnemonic = "PEEK_BIT" then match operands with | [i] => some (.command (.peekBit i)) | _ => none
  else if mnemonic = "PEEK" then match operands with | [i, n] => some (.command (.peek i n)) | _ => none
  else if mnemonic = "SERIALIZE" then match operands with | [] => some (.command .serialize) | _ => none
  else if mnemonic = "CLEAR" then match operands with | [] => some (.command .clear) | _ => none
  else if mnemonic = "LOAD_BYTE" then match operands with | [b] => some (.command (.loadByte b)) | _ => none
  else if mnemonic = "GET_COUNT" then match operands with | [] => some (.command .getCount) | _ => none
  else if mnemonic = "GET_STATUS" then match operands with | [] => some (.command .getStatus) | _ => none
  else if mnemonic = "LOOKAHEAD" then match operands with | [i] => some (.lookahead i) | _ => none
  else if mnemonic = "APPEND_CODE" then match operands with | [v, n] => some (.appendCode v n) | _ => none
  else if mnemonic = "FROM_BYTES" then match operands with | b :: bs => some (.fromBytes (b :: bs)) | [] => none
  else if mnemonic = "APPEND_ONES" then match operands with | [n] => some (.appendOnes n) | _ => none
  else if mnemonic = "APPEND_ZEROS" then match operands with | [n] => some (.appendZeros n) | _ => none
  else none

/-- The words of one line of text: "one command per line: the mnemonic, then its operands separated by commas. A comment starts with `;`" (30_encoding.md R73). A line with nothing before its
comment has no words, and a blank ends the mnemonic: DESIGN CHOICE (log entry 12). -/
def assembleText (line : List Char) : Option (List CommandWord) :=
  match trim (line.takeWhile (fun c => decide (c ≠ ';'))) with
  | [] => some []
  | c :: t =>
    let text := c :: t
    let mnemonic := text.takeWhile (fun c => !isBlank c)
    match operandsOf (text.dropWhile (fun c => !isBlank c)) with
    | none => none
    | some ops =>
      match lineOf (String.ofList mnemonic) ops with
      | some l => assembleLine l
      | none => none

/-- The words of a whole text, line by line, all or none: that one refused line refuses the text is a DESIGN CHOICE (log entry 12). -/
def assembleLines : List (List Char) → Option (List CommandWord)
  | [] => some []
  | l :: ls =>
    match assembleText l, assembleLines ls with
    | some ws, some rest => some (ws ++ rest)
    | _, _ => none

/-- The words of an assembly program (30_encoding.md R73): one line of text after another. A line ends at a line feed: DESIGN CHOICE (log entry 12). -/
def assembleProgram (text : List Char) : Option (List CommandWord) := assembleLines (cutAt '\n' text)

end Sys2Proof.Machine
end

