-- ==== Sys2Proof/Safety.lean ====
section
/-! DEFINITION. The terms the statements are written in: the invariant of the block, what a host can tell apart, runs, the fault a word reports read off the rules, and the host's own destuffing. -/

namespace Sys2Proof.Machine

/-! ### The invariant -/

/-- What holds between commands: the configuration is legal (00_scope.md R6), the storage is in canonical form and lists only bytes of atoms that exist (10_state.md R22),
`COUNT <= CAP_BITS` (10_state.md R24), and every stored bit at an offset `i` with `COUNT <= i < CAP_BITS` is 1 (10_state.md R23). -/
structure State.Inv (s : State) : Prop where
  legal : s.config.Legal
  canonical : Memory.WF s.mem
  inside : ∀ c ∈ s.mem, c.1 / 2 < s.config.nAtoms
  count_le : s.count.toNat ≤ s.config.capBits
  padding : ∀ i, s.count.toNat ≤ i → i < s.config.capBits → s.storedBit i = true

/-- Two states that a host cannot tell apart: they may differ only in the stored bits at and beyond `COUNT`, the hidden state (10_state.md R32). -/
structure SameToHost (s t : State) : Prop where
  config : t.config = s.config
  count : t.count = s.count
  status : t.status = s.status
  pending : t.pending = s.pending
  events : t.events = s.events
  stored : ∀ i, i < s.count.toNat → t.storedBit i = s.storedBit i

/-! ### Runs -/

/-- `k` steps, as long as each answers a next state. -/
def runSteps : Nat → State → Host.Outcome State Fault Refusal
  | 0, s => .next s
  | k + 1, s =>
    match step s with
    | .next t => runSteps k t
    | .fault f => .fault f
    | .refused r => .refused r

/-- A list of commands executed one after another, as long as each answers a next state. -/
def execAll : List Instr → State → Host.Outcome State Fault Refusal
  | [], s => .next s
  | i :: is, s =>
    match exec i s with
    | .next t => execAll is t
    | .fault f => .fault f
    | .refused r => .refused r

/-! ### What a command leaves -/

/-- The state a fault leaves when the block was running: only `STATUS` is written and the response is `FAULT` (60_exceptions.md R120). -/
def State.withFault (s : State) (c : FaultCause) : State :=
  { s with status := .faulted c, events := s.events ++ [.resp (.fault c)] }

/-- The state a command leaves that changes nothing and answers `r` (20_memory.md R51). -/
def State.withResponse (s : State) (r : Response) : State := { s with events := s.events ++ [.resp r] }

/-- What an append of `n` bits leaves (40_append.md R82): bit `k` of the `n` is `bits k`, stored at `COUNT + k`; `COUNT` is exactly `n` more; the response is `OK`; every other stored bit, every byte that
holds none of the `n` offsets, and every other field is as before. -/
structure Appended (s t : State) (n : Nat) (bits : Nat → Bool) : Prop where
  count : t.count.toNat = s.count.toNat + n
  written : ∀ k, k < n → t.storedBit (s.count.toNat + k) = bits k
  others : ∀ j, j < s.count.toNat ∨ s.count.toNat + n ≤ j → t.storedBit j = s.storedBit j
  bytes : ∀ a, (∀ k, k < n → a ≠ (s.count.toNat + k) / 8) → Memory.read t.mem a = Memory.read s.mem a
  config : t.config = s.config
  status : t.status = s.status
  pending : t.pending = s.pending
  events : t.events = s.events ++ [.resp .ok]

/-! ### The fault a word reports, read off the rules -/

/-- `word[63:60]` as a number. -/
def opNat (w : CommandWord) : Nat := w.toNat / 2 ^ 60

/-- `word[59:53]` as a number. -/
def rsvNat (w : CommandWord) : Nat := w.toNat / 2 ^ 53 % 2 ^ 7

/-- `word[52:48]` as a number. -/
def cntNat (w : CommandWord) : Nat := w.toNat / 2 ^ 48 % 2 ^ 5

/-- `word[47:32]` as a number. -/
def dataNat (w : CommandWord) : Nat := w.toNat / 2 ^ 32 % 2 ^ 16

/-- `word[31:0]` as a number. -/
def offNat (w : CommandWord) : Nat := w.toNat % 2 ^ 32

/-- `OP` is 0x0 or 0xA to 0xF (60_exceptions.md R121). -/
abbrev OpReserved (w : CommandWord) : Prop := opNat w = 0 ∨ 10 ≤ opNat w

/-- `RSV != 0`, or a field marked "0" for `OP` in 30_encoding.md R67 is nonzero (60_exceptions.md R122). -/
abbrev FieldReserved (w : CommandWord) : Prop :=
  rsvNat w ≠ 0
  ∨ (cntNat w ≠ 0 ∧ opNat w ≠ 2 ∧ opNat w ≠ 4)
  ∨ (dataNat w ≠ 0 ∧ opNat w ≠ 1 ∧ opNat w ≠ 2 ∧ opNat w ≠ 7)
  ∨ (offNat w ≠ 0 ∧ opNat w ≠ 3 ∧ opNat w ≠ 4)

/-- The table of 60_exceptions.md R123. -/
abbrev OperandOut (w : CommandWord) : Prop :=
  (opNat w = 1 ∧ 1 < dataNat w)
  ∨ (opNat w = 2 ∧ (cntNat w = 0 ∨ 16 < cntNat w))
  ∨ (opNat w = 4 ∧ 16 < cntNat w)
  ∨ (opNat w = 7 ∧ 0xFF < dataNat w)

/-- `COUNT + n > CAP_BITS`, with `n` the bits the command would append (60_exceptions.md R124). -/
abbrev Overflows (w : CommandWord) (s : State) : Prop :=
  (opNat w = 1 ∧ s.config.capBits < s.count.toNat + 1)
  ∨ (opNat w = 2 ∧ s.config.capBits < s.count.toNat + cntNat w)
  ∨ (opNat w = 7 ∧ s.config.capBits < s.count.toNat + 8)

/-- The fault a running block reports for a word: "the first in this order that applies" (60_exceptions.md R125); none where the command completes. -/
def reportedFault (w : CommandWord) (s : State) : Option FaultCause :=
  if OpReserved w then some .illegalOpcode
  else if FieldReserved w then some .reservedField
  else if OperandOut w then some .operandRange
  else if Overflows w s then some .capacityOverflow
  else none

/-! ### The host's own operations -/

/-- Destuffing: "delete the `0x00` that follows each `0xFF`" (42_serialize.md R105). It is the lexer's, not the block's (00_scope.md R4). -/
def destuff : List Byte → List Byte
  | [] => []
  | [b] => [b]
  | b :: c :: bs => if b = 0xFF#8 ∧ c = 0x00#8 then b :: destuff bs else b :: destuff (c :: bs)

/-- The from-bytes constructor: `CLEAR` and one `LOAD_BYTE` per byte (43_control.md R114). -/
def fromBytes (bs : List Byte) : List Instr := .clear :: bs.map (fun b => .loadByte b.toNat)

/-- The commands that append a list of `(v, n)` pairs (40_append.md R82). -/
def appendPairs (ps : List (Nat × Nat)) : List Instr := ps.map (fun p => .appendBits p.1 p.2)

/-- The offset at which the pairs after `ps` start: the sum of the lengths (40_append.md R82). -/
def totalBits (ps : List (Nat × Nat)) : Nat := (ps.map Prod.snd).sum

/-- A peek that does not fault (41_peek.md R93). -/
def isLegalPeek : Instr → Bool
  | .peekBit _ => true
  | .peek _ n => decide (n ≤ 16)
  | .appendBit _ => false
  | .appendBits _ _ => false
  | .serialize => false
  | .clear => false
  | .loadByte _ => false
  | .getCount => false
  | .getStatus => false

end Sys2Proof.Machine
end

