-- ==== Sys2Proof/Certificates/Slice0/Obligations.lean ====
section
/-! DEFINITION. The statements for the provers. Each names the rules of the spec it formalises; none is about a program, and none rests on a value the model chose, but where its docstring says so. -/

open Sys2Proof Sys2Proof.Machine

/-! ### Encoding -/

/-- 30_encoding.md R60: the fields of a word and the formula of a word. -/
def Obligations.WordIsItsFields : Prop :=
  ∀ w : CommandWord,
    (fieldsOf w).op.toNat = w.toNat / 2 ^ 60
    ∧ (fieldsOf w).rsv.toNat = w.toNat / 2 ^ 53 % 2 ^ 7
    ∧ (fieldsOf w).cnt.toNat = w.toNat / 2 ^ 48 % 2 ^ 5
    ∧ (fieldsOf w).data.toNat = w.toNat / 2 ^ 32 % 2 ^ 16
    ∧ (fieldsOf w).off.toNat = w.toNat % 2 ^ 32
    ∧ w.toNat = (fieldsOf w).op.toNat <<< 60 ||| (fieldsOf w).rsv.toNat <<< 53 ||| (fieldsOf w).cnt.toNat <<< 48
        ||| (fieldsOf w).data.toNat <<< 32 ||| (fieldsOf w).off.toNat

/-- 30_encoding.md R75: the example words, decoded and assembled. -/
def Obligations.ExampleWordsDecode : Prop :=
  (decode 0x1000000100000000 = .ok (.appendBit 1) ∧ assembleInstr (.appendBit 1) = some 0x1000000100000000)
  ∧ (decode 0x2003A00000000000 = .ok (.appendBits 0xA000 3) ∧ assembleInstr (.appendBits 0xA000 3) = some 0x2003A00000000000)
  ∧ (decode 0x3000000000000014 = .ok (.peekBit 20) ∧ assembleInstr (.peekBit 20) = some 0x3000000000000014)
  ∧ (decode 0x4008000000000004 = .ok (.peek 4 8) ∧ assembleInstr (.peek 4 8) = some 0x4008000000000004)
  ∧ (decode 0x4010000000000000 = .ok (.peek 0 16) ∧ assembleLine (.lookahead 0) = some [0x4010000000000000])
  ∧ (decode 0x5000000000000000 = .ok .serialize ∧ assembleInstr .serialize = some 0x5000000000000000)
  ∧ (decode 0x6000000000000000 = .ok .clear ∧ assembleInstr .clear = some 0x6000000000000000)
  ∧ (decode 0x700000A500000000 = .ok (.loadByte 0xA5) ∧ assembleInstr (.loadByte 0xA5) = some 0x700000A500000000)
  ∧ (decode 0x8000000000000000 = .ok .getCount ∧ assembleInstr .getCount = some 0x8000000000000000)
  ∧ (decode 0x9000000000000000 = .ok .getStatus ∧ assembleInstr .getStatus = some 0x9000000000000000)

/-- Every well-formed command, with every operand its fields admit, is what its word decodes to. -/
def Obligations.DecodeInvertsEncode : Prop :=
  ∀ i : Instr, i.WellFormed → decode (encode i) = .ok i

/-- The other direction: a word that decodes is the word of the well-formed command it decodes to, so no two words hold one command (30_encoding.md R69). -/
def Obligations.EncodeInvertsDecode : Prop :=
  ∀ (w : CommandWord) (i : Instr), decode w = .ok i → i.WellFormed ∧ encode i = w

/-- A word matches a row of spec/opcode_table.json exactly when it decodes to that row's command (30_encoding.md, opening). -/
def Obligations.TableRowsMatchDecode : Prop :=
  ∀ (w : CommandWord) (o : Opcode), MatchesRow w o ↔ ∃ i, decode w = .ok i ∧ opcodeFor i = o

/-- 30_encoding.md R72, with R62, R68 and R69: which words decode to nothing, and why. -/
def Obligations.DecodeRefusesExactly : Prop :=
  ∀ w : CommandWord,
    (decode w = .error .illegalOpcode ↔ OpReserved w)
    ∧ (decode w = .error .reservedField ↔ ¬ OpReserved w ∧ FieldReserved w)
    ∧ ((∃ i, decode w = .ok i) ↔ ¬ OpReserved w ∧ ¬ FieldReserved w)

/-- 30_encoding.md R73: the assembler refuses exactly the operands that do not fit their field, and the words of the nine forms. -/
def Obligations.AssemblerWords : Prop :=
  (∀ b, assembleInstr (.appendBit b)
      = if b ≤ 0xFFFF then some (BitVec.ofNat 64 (0x1 * 2 ^ 60 + b * 2 ^ 32)) else none)
  ∧ (∀ v n, assembleInstr (.appendBits v n)
      = if v ≤ 0xFFFF ∧ n ≤ 31 then some (BitVec.ofNat 64 (0x2 * 2 ^ 60 + n * 2 ^ 48 + v * 2 ^ 32)) else none)
  ∧ (∀ i, assembleInstr (.peekBit i)
      = if i ≤ 0xFFFFFFFF then some (BitVec.ofNat 64 (0x3 * 2 ^ 60 + i)) else none)
  ∧ (∀ i n, assembleInstr (.peek i n)
      = if i ≤ 0xFFFFFFFF ∧ n ≤ 31 then some (BitVec.ofNat 64 (0x4 * 2 ^ 60 + n * 2 ^ 48 + i)) else none)
  ∧ assembleInstr .serialize = some (BitVec.ofNat 64 (0x5 * 2 ^ 60))
  ∧ assembleInstr .clear = some (BitVec.ofNat 64 (0x6 * 2 ^ 60))
  ∧ (∀ b, assembleInstr (.loadByte b)
      = if b ≤ 0xFFFF then some (BitVec.ofNat 64 (0x7 * 2 ^ 60 + b * 2 ^ 32)) else none)
  ∧ assembleInstr .getCount = some (BitVec.ofNat 64 (0x8 * 2 ^ 60))
  ∧ assembleInstr .getStatus = some (BitVec.ofNat 64 (0x9 * 2 ^ 60))

/-- The five pseudo-instructions and their expansions (30_encoding.md R74). Two points are the model's choice (log entry 12, DESIGN CHOICE), not the spec's: `APPEND_ONES` and `APPEND_ZEROS` are
refused for `n` outside 1 to 16, where R74 only gives no expansion, and `FROM_BYTES` of no byte, for which R74 gives no form, expands to `CLEAR` alone. -/
def Obligations.PseudoInstructionsExpand : Prop :=
  (∀ i, expandLine (.lookahead i) = some [.peek i 16])
  ∧ (∀ bits len, expandLine (.appendCode bits len) = some [.appendBits bits len])
  ∧ (∀ bs, expandLine (.fromBytes bs) = some (.clear :: bs.map fun b => .loadByte b))
  ∧ (∀ n, expandLine (.appendOnes n) = if 1 ≤ n ∧ n ≤ 16 then some [.appendBits 0xFFFF n] else none)
  ∧ (∀ n, expandLine (.appendZeros n) = if 1 ≤ n ∧ n ≤ 16 then some [.appendBits 0x0000 n] else none)

/-! ### Storage and the stream -/

/-- 20_memory.md R41, with the place of an offset of R40: `Bit(i)` is the stored bit below `COUNT` and 1 at and beyond it. -/
def Obligations.BitReadsStoredOrSentinel : Prop :=
  ∀ (s : State) (i : Nat),
    s.bit i = if i < s.count.toNat then (s.atom (i >>> 4)).getLsbD (15 - (i &&& 15)) else true

/-- 20_memory.md R42 and R48: `MemRead(i, n)` is the sum of its bits, first bit most significant, and a bit past `0xFFFF_FFFF` is 1. -/
def Obligations.MemReadIsSumOfBits : Prop :=
  ∀ (s : State) (i n : Nat), n ≤ 16 →
    (s.memRead i n).toNat
      = ((List.range n).map fun k =>
          (if i + k ≤ 0xFFFFFFFF then s.bit (i + k) else true).toNat <<< (n - 1 - k)).sum

/-- 20_memory.md R43: `MemWrite(i, n, v)` stores the `n` most significant bits of `v`, `v[15]` first; no other bit of any atom and no other field changes, and the low bits of `v` have no effect. -/
def Obligations.MemWriteStoresTopBits : Prop :=
  ∀ (s : State) (i n : Nat) (v : BitVec 16), 1 ≤ n → n ≤ 16 →
    (∀ k, k < n → ((s.memWrite i v n).atom ((i + k) >>> 4)).getLsbD (15 - ((i + k) &&& 15)) = v.getLsbD (15 - k))
    ∧ (∀ j b, b < 16 → (∀ k, k < n → ¬ (j = (i + k) >>> 4 ∧ b = 15 - ((i + k) &&& 15))) →
        ((s.memWrite i v n).atom j).getLsbD b = (s.atom j).getLsbD b)
    ∧ (∀ u : BitVec 16, u >>> (16 - n) = v >>> (16 - n) → s.memWrite i u n = s.memWrite i v n)
    ∧ (s.memWrite i v n).count = s.count ∧ (s.memWrite i v n).status = s.status ∧ (s.memWrite i v n).config = s.config
    ∧ (s.memWrite i v n).pending = s.pending ∧ (s.memWrite i v n).events = s.events

/-! ### Append commands (40_append.md, and `LOAD_BYTE` of 43_control.md) -/

/-- 40_append.md R80, whole: the encoding, the two faults in their order, and the append of the bit. -/
def Obligations.AppendBitRule : Prop :=
  ∀ (s : State) (b : Nat), s.config.Legal → s.status = .running →
    fieldsOf (encode (.appendBit b)) = { op := 0x1, rsv := 0, cnt := 0, data := BitVec.ofNat 16 b, off := 0 }
    ∧ (1 < b → exec (.appendBit b) s = .next (s.withFault .operandRange))
    ∧ (b ≤ 1 → s.config.capBits < s.count.toNat + 1 → exec (.appendBit b) s = .next (s.withFault .capacityOverflow))
    ∧ (b ≤ 1 → s.count.toNat + 1 ≤ s.config.capBits →
        ∃ t, exec (.appendBit b) s = .next t ∧ Appended s t 1 (fun _ => decide (b = 1)))

/-- 40_append.md R81, whole: the encoding, the two faults in their order, and the append of the `n` most significant bits. -/
def Obligations.AppendBitsRule : Prop :=
  ∀ (s : State) (v n : Nat), s.config.Legal → s.status = .running →
    fieldsOf (encode (.appendBits v n)) = { op := 0x2, rsv := 0, cnt := BitVec.ofNat 5 n, data := BitVec.ofNat 16 v, off := 0 }
    ∧ (n < 1 ∨ 16 < n → exec (.appendBits v n) s = .next (s.withFault .operandRange))
    ∧ (1 ≤ n → n ≤ 16 → s.config.capBits < s.count.toNat + n → exec (.appendBits v n) s = .next (s.withFault .capacityOverflow))
    ∧ (1 ≤ n → n ≤ 16 → s.count.toNat + n ≤ s.config.capBits →
        ∃ t, exec (.appendBits v n) s = .next t ∧ Appended s t n (fun k => v.testBit (15 - k)))

/-- 43_control.md R111, whole: the encoding, the two faults in their order, and the append of the byte, most significant bit first; it writes what `APPEND_BITS (b << 8), 8` writes. -/
def Obligations.LoadByteRule : Prop :=
  ∀ (s : State) (b : Nat), s.config.Legal → s.status = .running →
    fieldsOf (encode (.loadByte b)) = { op := 0x7, rsv := 0, cnt := 0, data := BitVec.ofNat 16 b, off := 0 }
    ∧ (0xFF < b → exec (.loadByte b) s = .next (s.withFault .operandRange))
    ∧ (b ≤ 0xFF → s.config.capBits < s.count.toNat + 8 → exec (.loadByte b) s = .next (s.withFault .capacityOverflow))
    ∧ (b ≤ 0xFF → s.count.toNat + 8 ≤ s.config.capBits →
        (∃ t, exec (.loadByte b) s = .next t ∧ Appended s t 8 (fun k => b.testBit (7 - k)))
        ∧ exec (.loadByte b) s = exec (.appendBits (b <<< 8) 8) s)

/-- 40_append.md R82: appends of `(v_1, n_1), ..., (v_m, n_m)` from an empty stream, read back at the recorded offsets, give `v_j >> (16 - n_j)`. -/
def Obligations.AppendsReadBack : Prop :=
  ∀ (s : State) (ps : List (Nat × Nat)), s.config.Legal → s.status = .running → s.count = 0 →
    (∀ p ∈ ps, p.1 ≤ 0xFFFF ∧ 1 ≤ p.2 ∧ p.2 ≤ 16) → totalBits ps ≤ s.config.capBits →
    ∃ t, execAll (appendPairs ps) s = .next t ∧ t.count.toNat = totalBits ps
      ∧ ∀ (before after : List (Nat × Nat)) (v n : Nat), ps = before ++ (v, n) :: after →
          (t.memRead (totalBits before) n).toNat = v >>> (16 - n)

/-- 20_memory.md R46: one `APPEND_BITS v, n` and `n` `APPEND_BIT` commands of `v[15]` downwards leave the same stream. -/
def Obligations.AppendBitsIsSingleAppends : Prop :=
  ∀ (s : State) (v n : Nat), s.Inv → s.status = .running → v ≤ 0xFFFF → 1 ≤ n → n ≤ 16 → s.count.toNat + n ≤ s.config.capBits →
    ∃ t u, exec (.appendBits v n) s = .next t
      ∧ execAll ((List.range n).map fun k => .appendBit ((v >>> (15 - k)) % 2)) s = .next u
      ∧ u.mem = t.mem ∧ u.count = t.count ∧ u.status = t.status ∧ u.config = t.config

/-- 70_reset_and_hazards.md R144: a `PEEK` issued right after an append sees the appended bits. -/
def Obligations.PeekAfterAppendSeesBits : Prop :=
  ∀ (s : State) (v n : Nat) (rest : List HostMove), s.config.Legal → s.status = .running → v ≤ 0xFFFF → 1 ≤ n → n ≤ 16 →
    s.count.toNat + n ≤ s.config.capBits →
    s.pending = .command (encode (.appendBits v n)) :: .command (encode (.peek s.count.toNat n)) :: rest →
    ∃ t, runSteps 2 s = .next t ∧ t.pending = rest
      ∧ t.events = s.events ++ [.resp .ok, .resp (.value (BitVec.ofNat 32 (v >>> (16 - n))))]

/-! ### Peek commands (41_peek.md) -/

/-- 41_peek.md R90, whole: the encoding, and the one bit in the response; nothing else changes. -/
def Obligations.PeekBitRule : Prop :=
  ∀ (s : State) (i : Nat), s.status = .running →
    fieldsOf (encode (.peekBit i)) = { op := 0x3, rsv := 0, cnt := 0, data := 0, off := BitVec.ofNat 32 i }
    ∧ exec (.peekBit i) s = .next (s.withResponse (.value (if s.bit i then 1 else 0)))

/-- 41_peek.md R91, whole: the encoding, the fault, and the `n` bits in the response, right-justified with `Bit(i)` most significant; nothing else changes. -/
def Obligations.PeekRule : Prop :=
  ∀ (s : State) (i n : Nat), s.status = .running →
    fieldsOf (encode (.peek i n)) = { op := 0x4, rsv := 0, cnt := BitVec.ofNat 5 n, data := 0, off := BitVec.ofNat 32 i }
    ∧ (16 < n → exec (.peek i n) s = .next (s.withFault .operandRange))
    ∧ (n ≤ 16 → ∃ v : Word, exec (.peek i n) s = .next (s.withResponse (.value v))
        ∧ (∀ k, k < n → v.getLsbD (n - 1 - k) = s.bit (i + k)) ∧ (∀ j, n ≤ j → v.getLsbD j = false))

/-- 41_peek.md R92: `PEEK i, 1` is `PEEK_BIT i`, and a narrow read is the top of the 16-bit one. -/
def Obligations.NarrowPeekIsTopOfWide : Prop :=
  ∀ (s : State) (i : Nat),
    exec (.peek i 1) s = exec (.peekBit i) s
    ∧ ∀ n, n ≤ 16 → s.memRead i n = s.memRead i 16 >>> (16 - n)

/-- 41_peek.md R93: any number of peeks that do not fault changes no later response or byte; a peek that faults changes `STATUS` and nothing else of the block. -/
def Obligations.PeeksChangeNothingLater : Prop :=
  (∀ (s : State) (ps : List Instr), s.status = .running → (∀ p ∈ ps, isLegalPeek p = true) →
    ∃ t, execAll ps s = .next t
      ∧ ∀ k, ∃ (u : State) (new : List Event), runSteps k s = .next { u with events := s.events ++ new }
          ∧ runSteps k t = .next { u with events := t.events ++ new })
  ∧ (∀ (s : State) (i n : Nat), s.status = .running → 16 < n →
      exec (.peek i n) s = .next (s.withFault .operandRange))

/-! ### The serializer (42_serialize.md) -/

/-- 42_serialize.md R100, with the byte order of 20_memory.md R44: the encoding, the `ceil(COUNT / 8)` bytes, the stuffing, the order of bytes and response; nothing else changes. -/
def Obligations.SerializeRule : Prop :=
  ∀ s : State, s.status = .running →
    fieldsOf (encode .serialize) = { op := 0x5, rsv := 0, cnt := 0, data := 0, off := 0 }
    ∧ ∃ us : List Byte, us.length = (s.count.toNat + 7) / 8
        ∧ (∀ k u, us[k]? = some u → ∀ j, j < 8 → u.getLsbD (7 - j) = s.bit (8 * k + j))
        ∧ exec .serialize s = .next { s with
            events := s.events ++ (us.flatMap fun b => if b = 0xFF#8 then [0xFF#8, 0x00#8] else [b]).map Event.byte ++ [.resp .ok] }

/-- 42_serialize.md R101: `SERIALIZE` leaves the block unchanged, and repeating it emits the same bytes. -/
def Obligations.SerializeRepeats : Prop :=
  ∀ s : State, s.status = .running →
    ∃ (t u : State) (bs : List Byte), exec .serialize s = .next t ∧ exec .serialize t = .next u
      ∧ t = { s with events := s.events ++ bs.map Event.byte ++ [.resp .ok] }
      ∧ u = { s with events := t.events ++ bs.map Event.byte ++ [.resp .ok] }

/-- 42_serialize.md R104: the number of emitted bytes, and that every emitted `0xFF` is immediately followed by `0x00`. -/
def Obligations.SerializedLengthAndEscapes : Prop :=
  ∀ s : State, s.status = .running →
    ∃ out : List Byte, exec .serialize s = .next { s with events := s.events ++ out.map Event.byte ++ [.resp .ok] }
      ∧ out.length = (s.count.toNat + 7) / 8 + (s.streamBytes.filter fun b => b = 0xFF#8).length
      ∧ ∀ k, out[k]? = some 0xFF#8 → out[k + 1]? = some 0x00#8

/-- 42_serialize.md R105: destuffing the emitted bytes gives the unstuffed ones. -/
def Obligations.DestuffInvertsSerialize : Prop :=
  ∀ s : State, s.status = .running →
    ∃ out : List Byte, exec .serialize s = .next { s with events := s.events ++ out.map Event.byte ++ [.resp .ok] }
      ∧ destuff out = s.streamBytes

/-- 43_control.md R114: the stream built from the destuffed bytes of a stream reads the same at every offset, and its `COUNT` is `8 * ceil(c / 8)`. -/
def Obligations.SerializeReloadRoundTrip : Prop :=
  ∀ (s t : State), s.Inv → s.status = .running → t.config = s.config → t.status = .running →
    ∃ (out : List Byte) (u : State), exec .serialize s = .next { s with events := s.events ++ out.map Event.byte ++ [.resp .ok] }
      ∧ execAll (fromBytes (destuff out)) t = .next u
      ∧ u.count.toNat = 8 * ((s.count.toNat + 7) / 8)
      ∧ ∀ i, u.bit i = s.bit i

/-- 43_control.md R114: the from-bytes constructor applied to `m` bytes leaves `COUNT = 8m` and the bytes' bits, whatever the stream held. -/
def Obligations.FromBytesLoads : Prop :=
  ∀ (s : State) (bs : List Byte), s.config.Legal → s.status = .running → 8 * bs.length ≤ s.config.capBits →
    ∃ t, execAll (fromBytes bs) s = .next t ∧ t.count.toNat = 8 * bs.length ∧ t.status = .running
      ∧ ∀ k b, bs[k]? = some b → ∀ j, j < 8 → t.bit (8 * k + j) = b.getLsbD (7 - j)

/-! ### Construction and bookkeeping (43_control.md) -/

/-- 43_control.md R110, whole: the encoding, the empty stream, nothing done while faulted. -/
def Obligations.ClearRule : Prop :=
  fieldsOf (encode .clear) = { op := 0x6, rsv := 0, cnt := 0, data := 0, off := 0 }
  ∧ (∀ s : State, s.status = .running →
      ∃ t, exec .clear s = .next t ∧ (∀ j, t.atom j = 0xFFFF#16) ∧ t.count = 0 ∧ (∀ i, t.bit i = true) ∧ t.status = s.status
        ∧ t.config = s.config ∧ t.pending = s.pending ∧ t.events = s.events ++ [.resp .ok]
        ∧ exec .serialize t = .next { t with events := t.events ++ [.resp .ok] })
  ∧ (∀ (s : State) (c : FaultCause), s.status = .faulted c → exec .clear s = .next (s.withResponse (.fault c)))

/-- 43_control.md R112: `GET_COUNT` answers `COUNT` and changes nothing. -/
def Obligations.GetCountRule : Prop :=
  fieldsOf (encode .getCount) = { op := 0x8, rsv := 0, cnt := 0, data := 0, off := 0 }
  ∧ ∀ s : State, s.status = .running → exec .getCount s = .next (s.withResponse (.value s.count))

/-- 43_control.md R113: `GET_STATUS` answers `{0000, CAUSE, FAULTED}`, running or faulted, and changes nothing. -/
def Obligations.GetStatusRule : Prop :=
  encode .getStatus = 0x9000000000000000#64
  ∧ ∀ s : State, exec .getStatus s = .next (s.withResponse (.value (BitVec.ofNat 32
      (match s.status with
        | .running => 0x00
        | .faulted .illegalOpcode => 0x03
        | .faulted .reservedField => 0x05
        | .faulted .operandRange => 0x07
        | .faulted .capacityOverflow => 0x09))))

/-- 10_state.md R25: the fields of `STATUS`. -/
def Obligations.StatusFields : Prop :=
  ∀ st : Status,
    st.word.extractLsb' 0 1 = st.faultedBit ∧ st.word.extractLsb' 1 3 = st.causeField ∧ st.word.extractLsb' 4 4 = 0#4
    ∧ st.causeField.toNat ≤ 4 ∧ (st.causeField ≠ 0 ↔ st.faultedBit = 1)

/-- 10_state.md R27: the words of the three responses; `TAG` 3 is never produced and a fault's `VAL` is 1 to 4. -/
def Obligations.ResponseWords : Prop :=
  (Response.ok.tag = 0 ∧ Response.ok.val = 0)
  ∧ (∀ v, (Response.value v).tag = 1 ∧ (Response.value v).val = v)
  ∧ (∀ c, (Response.fault c).tag = 2 ∧ (Response.fault c).val.toNat = c.code.toNat ∧ 1 ≤ c.code.toNat ∧ c.code.toNat ≤ 4)
  ∧ (∀ r : Response, r.tag ≠ 3)

/-! ### Faults (60_exceptions.md) -/

/-- 60_exceptions.md R120 to R125: a running block reports exactly the first fault that applies, with only `STATUS` changed; where none applies the command completes and leaves the block running. -/
def Obligations.FaultsAreTheFirstThatApplies : Prop :=
  ∀ (s : State) (w : CommandWord) (rest : List HostMove), s.status = .running → s.pending = .command w :: rest →
    match reportedFault w s with
    | some c => step s = .next { s with pending := rest, status := .faulted c, events := s.events ++ [.resp (.fault c)] }
    | none => ∃ t, step s = .next t ∧ t.status = .running
        ∧ ∃ (bs : List Byte) (r : Response), t.events = s.events ++ bs.map Event.byte ++ [.resp r] ∧ ∀ c, r ≠ .fault c

/-- 60_exceptions.md R126: while faulted, the exact `GET_STATUS` word answers `VALUE STATUS` and every other word `FAULT(CAUSE)`; no state changes. -/
def Obligations.FaultedBlockAbsorbs : Prop :=
  ∀ (s : State) (c : FaultCause) (w : CommandWord) (rest : List HostMove), s.status = .faulted c → s.pending = .command w :: rest →
    step s = .next { s with
      pending := rest
      events := s.events ++ [.resp (if w = 0x9000000000000000#64 then .value (s.status.word.setWidth 32) else .fault c)] }

/-- 60_exceptions.md R126 and R130: only reset leaves the faulted state, and until then the stream stays as it was. -/
def Obligations.OnlyResetLeavesFaulted : Prop :=
  ∀ (s t : State) (c : FaultCause), s.status = .faulted c → step s = .next t →
    (t.status = .faulted c ∧ t.mem = s.mem ∧ t.count = s.count)
    ∨ (s.pending.head? = some .reset ∧ t.status = .running)

/-- 60_exceptions.md R126 for each command: every one but `GET_STATUS` answers `FAULT(CAUSE)` and does nothing else. -/
def Obligations.CommandsAnswerFaultWhileFaulted : Prop :=
  ∀ (s : State) (c : FaultCause) (i : Instr), s.status = .faulted c → i ≠ .getStatus →
    exec i s = .next (s.withResponse (.fault c))

/-! ### Steps -/

/-- A step takes the host's next command word and runs the command it holds, on the state with that word taken. -/
def Obligations.StepRunsDecodedCommand : Prop :=
  ∀ (s : State) (w : CommandWord) (rest : List HostMove) (i : Instr), s.pending = .command w :: rest → decode w = .ok i →
    step s = exec i { s with pending := rest }

/-- With no move of the host to take, a step answers the same state. The idle step is the model's choice (log entry 3, DEDUCED from 60_exceptions.md R137 and 70_reset_and_hazards.md R141): the
spec's own steps are one per command (00_scope.md R12, 10_state.md R33). -/
def Obligations.IdleHoldsAllState : Prop :=
  ∀ s : State, s.pending = [] → step s = .next s

/-- 70_reset_and_hazards.md R140: the reset event. -/
def Obligations.ResetEvent : Prop :=
  ∀ (s : State) (rest : List HostMove), s.pending = .reset :: rest →
    ∃ t, step s = .next t ∧ (∀ j, t.atom j = 0xFFFF#16) ∧ t.count = 0 ∧ t.status = .running ∧ t.status.word = 0x00#8
      ∧ t.config = s.config ∧ t.pending = rest ∧ t.events = s.events
      ∧ ∃ u, exec .clear { s with pending := rest, status := .running } = .next u
          ∧ t = { u with events := s.events }

/-- 10_state.md R30: the reset values, for every configuration. That the machine's own reset state has `CAP_BITS = 64`, and that nothing is issued or produced yet, are the model's choices (log entries 1, 3 and 4). -/
def Obligations.ResetValues : Prop :=
  (∀ c : Config, (∀ j, (State.resetWith c).atom j = 0xFFFF#16) ∧ (State.resetWith c).count = 0 ∧ (State.resetWith c).status.word = 0x00#8
    ∧ (State.resetWith c).config = c ∧ (State.resetWith c).pending = [] ∧ (State.resetWith c).events = [])
  ∧ State.reset = State.resetWith { capBits := 64 }

/-- 10_state.md R27 and R28 and 70_reset_and_hazards.md R150: a command is always finished in one step, with exactly one response, after any bytes; only `SERIALIZE` emits bytes. -/
def Obligations.OneResponsePerCommand : Prop :=
  ∀ (s : State) (w : CommandWord) (rest : List HostMove), s.pending = .command w :: rest →
    ∃ (t : State) (bs : List Byte) (r : Response), step s = .next t ∧ t.pending = rest
      ∧ t.events = s.events ++ bs.map Event.byte ++ [.resp r]
      ∧ (bs ≠ [] → w = 0x5000000000000000#64 ∧ s.status = .running ∧ r = .ok)

/-- 70_reset_and_hazards.md R151: no step changes the configuration. -/
def Obligations.ConfigurationNeverChanges : Prop :=
  ∀ s t : State, step s = .next t → t.config = s.config

/-- 10_state.md R24: no command decreases `COUNT` except `CLEAR`; an append adds what it appends, at most 16, and `COUNT` never wraps (40_append.md R83). -/
def Obligations.OnlyClearDecreasesCount : Prop :=
  ∀ (s t : State) (w : CommandWord) (rest : List HostMove), s.Inv → s.pending = .command w :: rest → w ≠ 0x6000000000000000#64 →
    step s = .next t → s.count.toNat ≤ t.count.toNat ∧ t.count.toNat ≤ s.count.toNat + 16 ∧ t.count.toNat ≤ s.config.capBits

/-- 20_memory.md R47: no command but `CLEAR` rewrites a bit already written. -/
def Obligations.WrittenBitsStay : Prop :=
  ∀ (s t : State) (w : CommandWord) (rest : List HostMove), s.Inv → s.pending = .command w :: rest → w ≠ 0x6000000000000000#64 →
    step s = .next t → ∀ i, i < s.count.toNat → t.bit i = s.bit i

/-! ### Invariant and isolation -/

/-- The invariant holds right after reset, in every legal configuration. -/
def Obligations.InvariantAtReset : Prop :=
  (∀ c : Config, c.Legal → (State.resetWith c).Inv) ∧ State.reset.Inv

/-- Every step keeps the invariant: the padding (10_state.md R23), `COUNT <= CAP_BITS` (R24), the canonical storage inside the atoms that exist (R22). -/
def Obligations.InvariantKeptByStep : Prop :=
  ∀ s t : State, s.Inv → step s = .next t → t.Inv

/-- 10_state.md R32 and R23: the stored bits at and beyond `COUNT` cannot be observed. Two states that differ only there give, after any number of steps, states that differ only there, with the same responses and bytes. -/
def Obligations.HiddenBitsCannotBeObserved : Prop :=
  ∀ (s t : State) (k : Nat), SameToHost s t →
    ∃ s' t', runSteps k s = .next s' ∧ runSteps k t = .next t' ∧ SameToHost s' t'

/-- 10_state.md R34: what the block has produced before has no effect on what it does: the later events and every other field are the same whatever was produced before. -/
def Obligations.PastEventsHaveNoEffect : Prop :=
  ∀ (s : State) (past : List Event) (k : Nat),
    ∃ (u : State) (new : List Event), runSteps k s = .next { u with events := s.events ++ new }
      ∧ runSteps k { s with events := past } = .next { u with events := past ++ new }
end

