-- ==== Sys2Proof/Laws/Decode.lean ====
section
/-! SUPPORT. The fields of a word and the word of its fields, and the opcode map read both ways. -/

namespace Sys2Proof

theorem fieldsOf_wordOf (f : Fields) : fieldsOf (wordOf f) = f := by
  obtain ⟨op, rsv, cnt, data, off⟩ := f
  simp only [fieldsOf, wordOf, Fields.mk.injEq]
  refine ⟨?_, ?_, ?_, ?_, ?_⟩ <;>
  · apply BitVec.eq_of_getLsbD_eq
    intro k hk
    rw [BitVec.getLsbD_extractLsb']
    simp only [BitVec.getLsbD_append]
    repeat' split
    all_goals first
      | omega
      | (simp only [hk, decide_true, Bool.true_and]; congr 1; omega)

theorem wordOf_fieldsOf (w : CommandWord) : wordOf (fieldsOf w) = w := by
  apply BitVec.eq_of_getLsbD_eq
  intro k hk
  simp only [fieldsOf, wordOf, BitVec.getLsbD_append, BitVec.getLsbD_extractLsb']
  repeat' split
  all_goals
    (rw [decide_eq_true (by omega), Bool.true_and]; congr 1; omega)

theorem opcodeOf_opField (o : Opcode) : opcodeOf (opField o) = some o := by cases o <;> rfl

theorem opField_of_opcodeOf {b : BitVec 4} {o : Opcode} (h : opcodeOf b = some o) : b = opField o := by
  revert b o; decide +kernel

end Sys2Proof
end

