-- ==== Sys2Proof/Laws/State.lean ====
section
/-! SUPPORT. One lemma per field per update of State, so that no later proof unfolds a record update. -/

namespace Sys2Proof.Machine

/-! ### `State.respond` and `State.emit` -/

@[simp] theorem State.respond_config (s : State) (r : Response) : (s.respond r).config = s.config := rfl
@[simp] theorem State.respond_mem (s : State) (r : Response) : (s.respond r).mem = s.mem := rfl
@[simp] theorem State.respond_count (s : State) (r : Response) : (s.respond r).count = s.count := rfl
@[simp] theorem State.respond_status (s : State) (r : Response) : (s.respond r).status = s.status := rfl
@[simp] theorem State.respond_pending (s : State) (r : Response) : (s.respond r).pending = s.pending := rfl
@[simp] theorem State.respond_events (s : State) (r : Response) : (s.respond r).events = s.events ++ [.resp r] := rfl

@[simp] theorem State.emit_config (s : State) (b : Byte) : (s.emit b).config = s.config := rfl
@[simp] theorem State.emit_mem (s : State) (b : Byte) : (s.emit b).mem = s.mem := rfl
@[simp] theorem State.emit_count (s : State) (b : Byte) : (s.emit b).count = s.count := rfl
@[simp] theorem State.emit_status (s : State) (b : Byte) : (s.emit b).status = s.status := rfl
@[simp] theorem State.emit_pending (s : State) (b : Byte) : (s.emit b).pending = s.pending := rfl
@[simp] theorem State.emit_events (s : State) (b : Byte) : (s.emit b).events = s.events ++ [.byte b] := rfl

/-! ### `State.setCount` and `State.clearAtoms` -/

@[simp] theorem State.setCount_config (s : State) (n : Nat) : (s.setCount n).config = s.config := rfl
@[simp] theorem State.setCount_mem (s : State) (n : Nat) : (s.setCount n).mem = s.mem := rfl
@[simp] theorem State.setCount_count (s : State) (n : Nat) : (s.setCount n).count = BitVec.ofNat 32 n := rfl
@[simp] theorem State.setCount_status (s : State) (n : Nat) : (s.setCount n).status = s.status := rfl
@[simp] theorem State.setCount_pending (s : State) (n : Nat) : (s.setCount n).pending = s.pending := rfl
@[simp] theorem State.setCount_events (s : State) (n : Nat) : (s.setCount n).events = s.events := rfl

@[simp] theorem State.clearAtoms_config (s : State) : s.clearAtoms.config = s.config := rfl
@[simp] theorem State.clearAtoms_mem (s : State) : s.clearAtoms.mem = [] := rfl
@[simp] theorem State.clearAtoms_count (s : State) : s.clearAtoms.count = s.count := rfl
@[simp] theorem State.clearAtoms_status (s : State) : s.clearAtoms.status = s.status := rfl
@[simp] theorem State.clearAtoms_pending (s : State) : s.clearAtoms.pending = s.pending := rfl
@[simp] theorem State.clearAtoms_events (s : State) : s.clearAtoms.events = s.events := rfl

/-! ### `State.setAtom` and `State.storeBit` -/

@[simp] theorem State.setAtom_config (s : State) (j : Nat) (v : Atom) : (s.setAtom j v).config = s.config := rfl
@[simp] theorem State.setAtom_count (s : State) (j : Nat) (v : Atom) : (s.setAtom j v).count = s.count := rfl
@[simp] theorem State.setAtom_status (s : State) (j : Nat) (v : Atom) : (s.setAtom j v).status = s.status := rfl
@[simp] theorem State.setAtom_pending (s : State) (j : Nat) (v : Atom) : (s.setAtom j v).pending = s.pending := rfl
@[simp] theorem State.setAtom_events (s : State) (j : Nat) (v : Atom) : (s.setAtom j v).events = s.events := rfl

@[simp] theorem State.storeBit_config (s : State) (i : Nat) (b : Bool) : (s.storeBit i b).config = s.config := rfl
@[simp] theorem State.storeBit_count (s : State) (i : Nat) (b : Bool) : (s.storeBit i b).count = s.count := rfl
@[simp] theorem State.storeBit_status (s : State) (i : Nat) (b : Bool) : (s.storeBit i b).status = s.status := rfl
@[simp] theorem State.storeBit_pending (s : State) (i : Nat) (b : Bool) : (s.storeBit i b).pending = s.pending := rfl
@[simp] theorem State.storeBit_events (s : State) (i : Nat) (b : Bool) : (s.storeBit i b).events = s.events := rfl

/-! ### `State.applyReset` and `State.putMove` -/

@[simp] theorem State.applyReset_config (s : State) : s.applyReset.config = s.config := rfl
@[simp] theorem State.applyReset_mem (s : State) : s.applyReset.mem = [] := rfl
@[simp] theorem State.applyReset_count (s : State) : s.applyReset.count = 0 := rfl
@[simp] theorem State.applyReset_status (s : State) : s.applyReset.status = .running := rfl
@[simp] theorem State.applyReset_pending (s : State) : s.applyReset.pending = s.pending := rfl
@[simp] theorem State.applyReset_events (s : State) : s.applyReset.events = s.events := rfl

@[simp] theorem State.putMove_config (s : State) (m : HostMove) : (s.putMove m).config = s.config := rfl
@[simp] theorem State.putMove_mem (s : State) (m : HostMove) : (s.putMove m).mem = s.mem := rfl
@[simp] theorem State.putMove_count (s : State) (m : HostMove) : (s.putMove m).count = s.count := rfl
@[simp] theorem State.putMove_status (s : State) (m : HostMove) : (s.putMove m).status = s.status := rfl
@[simp] theorem State.putMove_pending (s : State) (m : HostMove) : (s.putMove m).pending = m :: s.pending := rfl
@[simp] theorem State.putMove_events (s : State) (m : HostMove) : (s.putMove m).events = s.events := rfl

/-! ### `State.memWrite`: only storage changes -/

@[simp] theorem State.memWrite_config (s : State) (i : Nat) (v : BitVec 16) (n : Nat) : (s.memWrite i v n).config = s.config := by
  induction n with
  | zero => rfl
  | succ n ih => exact ih
@[simp] theorem State.memWrite_count (s : State) (i : Nat) (v : BitVec 16) (n : Nat) : (s.memWrite i v n).count = s.count := by
  induction n with
  | zero => rfl
  | succ n ih => exact ih
@[simp] theorem State.memWrite_status (s : State) (i : Nat) (v : BitVec 16) (n : Nat) : (s.memWrite i v n).status = s.status := by
  induction n with
  | zero => rfl
  | succ n ih => exact ih
@[simp] theorem State.memWrite_pending (s : State) (i : Nat) (v : BitVec 16) (n : Nat) : (s.memWrite i v n).pending = s.pending := by
  induction n with
  | zero => rfl
  | succ n ih => exact ih
@[simp] theorem State.memWrite_events (s : State) (i : Nat) (v : BitVec 16) (n : Nat) : (s.memWrite i v n).events = s.events := by
  induction n with
  | zero => rfl
  | succ n ih => exact ih

/-! ### `State.emitAll`: only the events change -/

theorem State.emitAll_eq (s : State) (bs : List Byte) : s.emitAll bs = { s with events := s.events ++ bs.map .byte } := by
  induction bs generalizing s with
  | nil => simp [State.emitAll]
  | cons b bs ih => rw [State.emitAll, ih]; simp [State.emit]

@[simp] theorem State.emitAll_config (s : State) (bs : List Byte) : (s.emitAll bs).config = s.config := by rw [State.emitAll_eq]
@[simp] theorem State.emitAll_mem (s : State) (bs : List Byte) : (s.emitAll bs).mem = s.mem := by rw [State.emitAll_eq]
@[simp] theorem State.emitAll_count (s : State) (bs : List Byte) : (s.emitAll bs).count = s.count := by rw [State.emitAll_eq]
@[simp] theorem State.emitAll_status (s : State) (bs : List Byte) : (s.emitAll bs).status = s.status := by rw [State.emitAll_eq]
@[simp] theorem State.emitAll_pending (s : State) (bs : List Byte) : (s.emitAll bs).pending = s.pending := by rw [State.emitAll_eq]
@[simp] theorem State.emitAll_events (s : State) (bs : List Byte) : (s.emitAll bs).events = s.events ++ bs.map .byte := by
  rw [State.emitAll_eq]

/-! ### `State.raiseFault` and `State.whileRunning` -/

@[simp] theorem State.raiseFault_config (s : State) (c : FaultCause) : (s.raiseFault c).config = s.config := by
  unfold State.raiseFault; split <;> rfl
@[simp] theorem State.raiseFault_mem (s : State) (c : FaultCause) : (s.raiseFault c).mem = s.mem := by
  unfold State.raiseFault; split <;> rfl
@[simp] theorem State.raiseFault_count (s : State) (c : FaultCause) : (s.raiseFault c).count = s.count := by
  unfold State.raiseFault; split <;> rfl
@[simp] theorem State.raiseFault_pending (s : State) (c : FaultCause) : (s.raiseFault c).pending = s.pending := by
  unfold State.raiseFault; split <;> rfl

/-- Taking the first fault: only `STATUS` changes, and the response is `FAULT`. -/
theorem State.raiseFault_running {s : State} (h : s.status = .running) (c : FaultCause) :
    s.raiseFault c = { s with status := .faulted c, events := s.events ++ [.resp (.fault c)] } := by
  simp [State.raiseFault, h, State.respond]

/-- A fault while faulted: nothing changes, and the response is `FAULT` with the first cause. -/
theorem State.raiseFault_faulted {s : State} {first : FaultCause} (h : s.status = .faulted first) (c : FaultCause) :
    s.raiseFault c = s.respond (.fault first) := by
  simp [State.raiseFault, h]

theorem State.whileRunning_running {s : State} (h : s.status = .running) (k : State) : s.whileRunning k = k := by
  simp [State.whileRunning, h]

theorem State.whileRunning_faulted {s : State} {first : FaultCause} (h : s.status = .faulted first) (k : State) :
    s.whileRunning k = s.respond (.fault first) := by
  simp [State.whileRunning, h]

end Sys2Proof.Machine
end

