-- ==== Sys2Proof/Laws/Memory.lean ====
section
/-! SUPPORT. What the storage operations do: a read after a write, the canonical form they keep, and that canonical memories with equal bytes are equal. -/

namespace Sys2Proof.Machine

@[simp] theorem Memory.read_nil (a : Nat) : Memory.read [] a = Memory.blank := rfl

theorem Memory.read_of_not_listed (m : Memory) (a : Nat) (h : ∀ c ∈ m, c.1 ≠ a) : Memory.read m a = Memory.blank := by
  induction m with
  | nil => rfl
  | cons c m ih =>
    simp only [Memory.read, if_neg (h c (by simp))]
    exact ih fun d hd => h d (by simp [hd])

theorem Memory.read_erase (m : Memory) (a x : Nat) :
    Memory.read (Memory.erase m a) x = if x = a then Memory.blank else Memory.read m x := by
  induction m with
  | nil => simp [Memory.erase]
  | cons c m ih =>
    unfold Memory.erase at ih ⊢
    by_cases hc : c.1 = a
    · simp only [List.filter_cons, hc, ne_eq, not_true_eq_false, decide_false, Bool.false_eq_true, if_false, ih]
      by_cases hx : x = a
      · simp [hx]
      · simp [Memory.read, hx, hc, Ne.symm hx]
    · simp only [List.filter_cons, hc, ne_eq, not_false_eq_true, decide_true, if_true, Memory.read, ih]
      by_cases hx : x = a
      · simp [hx, hc]
      · simp [hx]

theorem Memory.read_insert (m : Memory) (a : Nat) (v : Byte) (h : ∀ c ∈ m, c.1 ≠ a) (x : Nat) :
    Memory.read (Memory.insert m a v) x = if x = a then v else Memory.read m x := by
  induction m with
  | nil => simp [Memory.insert, Memory.read, eq_comm]
  | cons c m ih =>
    have hc : c.1 ≠ a := h c (by simp)
    have ih := ih fun d hd => h d (by simp [hd])
    unfold Memory.insert
    split
    · simp [Memory.read, eq_comm]
    · simp only [Memory.read, ih]
      by_cases hx : x = a
      · simp [hx, hc]
      · simp [hx]

theorem Memory.mem_erase {m : Memory} {a : Nat} {c : Host.Cell} : c ∈ Memory.erase m a ↔ c ∈ m ∧ c.1 ≠ a := by
  simp [Memory.erase]

/-- A read after a write: the written byte at its address, every other byte as before. -/
theorem Memory.read_write (m : Memory) (a : Nat) (v : Byte) (x : Nat) :
    Memory.read (Memory.write m a v) x = if x = a then v else Memory.read m x := by
  unfold Memory.write
  split
  · next hv => rw [Memory.read_erase, hv]
  · rw [Memory.read_insert _ _ _ (fun c hc => (Memory.mem_erase.1 hc).2), Memory.read_erase]
    by_cases hx : x = a <;> simp [hx]

theorem Memory.mem_insert {m : Memory} {a : Nat} {v : Byte} {c : Host.Cell} : c ∈ Memory.insert m a v ↔ c = (a, v) ∨ c ∈ m := by
  induction m with
  | nil => simp [Memory.insert]
  | cons d m ih =>
    unfold Memory.insert
    split
    · simp
    · simp only [List.mem_cons, ih]; tauto

/-- Every cell of a written memory is the written one or was there before. -/
theorem Memory.mem_write {m : Memory} {a : Nat} {v : Byte} {c : Host.Cell} (h : c ∈ Memory.write m a v) : c = (a, v) ∨ c ∈ m := by
  unfold Memory.write at h
  split at h
  · exact .inr (Memory.mem_erase.1 h).1
  · exact (Memory.mem_insert.1 h).imp_right fun h => (Memory.mem_erase.1 h).1

theorem Memory.wf_nil : Memory.WF [] := by simp [Memory.WF]

theorem Memory.wf_erase {m : Memory} (h : Memory.WF m) (a : Nat) : Memory.WF (Memory.erase m a) :=
  ⟨h.1.filter _, fun c hc => h.2 c (Memory.mem_erase.1 hc).1⟩

theorem Memory.wf_insert {m : Memory} (h : Memory.WF m) (a : Nat) {v : Byte} (hv : v ≠ Memory.blank) (hm : ∀ c ∈ m, c.1 ≠ a) :
    Memory.WF (Memory.insert m a v) := by
  refine ⟨?_, fun c hc => (Memory.mem_insert.1 hc).elim (fun e => e ▸ hv) (h.2 c)⟩
  induction m with
  | nil => simp [Memory.insert]
  | cons d m ih =>
    obtain ⟨hlt, hrest⟩ := List.pairwise_cons.1 h.1
    have hm' : ∀ c ∈ m, c.1 ≠ a := fun c hc => hm c (by simp [hc])
    have hd : d.1 ≠ a := hm d (by simp)
    unfold Memory.insert
    split
    · next hlt' =>
      refine List.pairwise_cons.2 ⟨fun c hc => ?_, h.1⟩
      rcases List.mem_cons.1 hc with rfl | hc
      · exact hlt'
      · exact Nat.lt_trans hlt' (hlt c hc)
    · next hge =>
      refine List.pairwise_cons.2 ⟨fun c hc => ?_, ih ⟨hrest, fun c hc => h.2 c (by simp [hc])⟩ hm'⟩
      rcases Memory.mem_insert.1 hc with rfl | hc
      · simp only; omega
      · exact hlt c hc

/-- A write keeps the canonical form. -/
theorem Memory.wf_write {m : Memory} (h : Memory.WF m) (a : Nat) (v : Byte) : Memory.WF (Memory.write m a v) := by
  unfold Memory.write
  split
  · exact Memory.wf_erase h a
  · next hv => exact Memory.wf_insert (Memory.wf_erase h a) a hv fun c hc => (Memory.mem_erase.1 hc).2

/-- In a canonical memory a listed byte is read where it is listed. -/
theorem Memory.read_of_mem {m : Memory} (h : Memory.WF m) {c : Host.Cell} (hc : c ∈ m) : Memory.read m c.1 = c.2 := by
  induction m with
  | nil => simp at hc
  | cons d m ih =>
    obtain ⟨hlt, hrest⟩ := List.pairwise_cons.1 h.1
    rcases List.mem_cons.1 hc with rfl | hc
    · simp [Memory.read]
    · have := hlt c hc
      simp only [Memory.read, if_neg (Nat.ne_of_lt this)]
      exact ih ⟨hrest, fun c hc => h.2 c (by simp [hc])⟩ hc

/-- Canonical memories that read alike are equal: equal memories are equal data. -/
theorem Memory.ext_of_read {m m' : Memory} (h : Memory.WF m) (h' : Memory.WF m') (hr : ∀ a, Memory.read m a = Memory.read m' a) : m = m' := by
  have sub : ∀ {m m' : Memory}, Memory.WF m → Memory.WF m' → (∀ a, Memory.read m a = Memory.read m' a) → ∀ c ∈ m, c ∈ m' := by
    intro m m' h h' hr c hc
    have hread := (Memory.read_of_mem h hc).symm.trans (hr c.1)
    by_contra hn
    by_cases hl : ∃ d ∈ m', d.1 = c.1
    · obtain ⟨d, hd, hd1⟩ := hl
      have := Memory.read_of_mem h' hd
      rw [hd1, ← hread] at this
      exact hn ((Prod.ext hd1 this.symm : d = c) ▸ hd)
    · rw [Memory.read_of_not_listed m' c.1 (by push Not at hl; exact hl)] at hread
      exact h.2 c hc hread
  have nodup : ∀ {m : Memory}, Memory.WF m → m.Nodup := fun h => h.1.imp fun hlt e => by subst e; exact Nat.lt_irrefl _ hlt
  have perm : m.Perm m' := (List.perm_ext_iff_of_nodup (nodup h) (nodup h')).2 fun c =>
    ⟨sub h h' hr c, sub h' h (fun a => (hr a).symm) c⟩
  exact perm.eq_of_pairwise (le := fun c d => c.1 < d.1)
    (fun a b _ _ hab hba => absurd hab (Nat.lt_asymm hba)) h.1 h'.1

end Sys2Proof.Machine
end

