-- ==== Sys2Proof/Laws/Storage.lean ====
section
/-! SUPPORT. What the atom and bit primitives do: one lemma per primitive of 20_memory.md R40 to R43, and the bytes and the canonical form behind them. -/

namespace Sys2Proof.Machine

theorem withBit_getLsbD (x : Atom) (k : Nat) (b : Bool) (j : Nat) (hk : k < 16) :
    (withBit x k b).getLsbD j = if j = k then b else x.getLsbD j := by
  have hone : (1#16 <<< k).getLsbD j = (decide (j = k)) := by
    simp only [BitVec.getLsbD_shiftLeft, BitVec.getLsbD_one]
    by_cases h : j = k
    · subst h; simp [hk]
    · by_cases h1 : j < k
      · simp [h, h1]
      · have : j - k ≠ 0 := by omega
        simp [h, this]
  unfold withBit
  cases b
  · simp only [Bool.false_eq_true, if_false, BitVec.getLsbD_and, BitVec.getLsbD_not, hone]
    by_cases h : j = k
    · simp [h]
    · by_cases hj : j < 16
      · simp [h, hj]
      · simp [h, hj, BitVec.getLsbD_of_ge x j (by omega)]
  · simp only [if_true, BitVec.getLsbD_or, hone]
    by_cases h : j = k <;> simp [h]

/-- A stored bit is a bit of its byte: offset `i` is bit `7 - (i & 7)` of byte `i >> 3`. -/
theorem State.storedBit_eq_byte (s : State) (i : Nat) :
    s.storedBit i = (Memory.read s.mem (i / 8)).getLsbD (7 - i % 8) := by
  unfold State.storedBit State.atom
  rw [BitVec.getLsbD_append]
  by_cases h : i % 16 < 8
  · have h1 : i / 8 = 2 * (i / 16) := by omega
    have h2 : i % 8 = i % 16 := by omega
    have h3 : ¬ 15 - i % 16 < 8 := by omega
    have h4 : 15 - i % 16 - 8 = 7 - i % 16 := by omega
    simp [h1, h2, h3, h4]
  · have h1 : i / 8 = 2 * (i / 16) + 1 := by omega
    have h3 : 15 - i % 16 < 8 := by omega
    have h4 : 15 - i % 16 = 7 - i % 8 := by omega
    rw [if_pos h3, h1, h4]

/-- Bytes whose bits are stored alike are equal. -/
theorem State.read_eq_of_storedBit (s t : State) (a : Nat) (h : ∀ k, k < 8 → t.storedBit (8 * a + k) = s.storedBit (8 * a + k)) :
    Memory.read t.mem a = Memory.read s.mem a := by
  apply BitVec.eq_of_getLsbD_eq
  intro j hj
  have := h (7 - j) (by omega)
  rw [State.storedBit_eq_byte, State.storedBit_eq_byte] at this
  have e1 : (8 * a + (7 - j)) / 8 = a := by omega
  have e2 : 7 - (8 * a + (7 - j)) % 8 = j := by omega
  rwa [e1, e2] at this

theorem State.atom_setAtom (s : State) (j : Nat) (v : Atom) (k : Nat) :
    (s.setAtom j v).atom k = if k = j then v else s.atom k := by
  unfold State.atom State.setAtom
  simp only [Memory.read_write]
  by_cases h : k = j
  · subst h
    have e1 : 2 * k ≠ 2 * k + 1 := by omega
    simp only [if_true, if_neg e1]
    apply BitVec.eq_of_getLsbD_eq
    intro i hi
    rw [BitVec.getLsbD_append]
    by_cases h8 : i < 8
    · simp [h8]
    · have h1 : i - 8 < 8 := by omega
      have h2 : 8 + (i - 8) = i := by omega
      simp [h8, h1, h2]
  · have e1 : 2 * k ≠ 2 * j := by omega
    have e2 : 2 * k ≠ 2 * j + 1 := by omega
    have e3 : 2 * k + 1 ≠ 2 * j := by omega
    have e4 : 2 * k + 1 ≠ 2 * j + 1 := by omega
    simp only [if_neg h, if_neg e1, if_neg e2, if_neg e3, if_neg e4]

/-- Storing one bit changes that stored bit and no other. -/
theorem State.storedBit_storeBit (s : State) (i : Nat) (b : Bool) (j : Nat) :
    (s.storeBit i b).storedBit j = if j = i then b else s.storedBit j := by
  unfold State.storeBit State.storedBit
  rw [State.atom_setAtom]
  by_cases hq : j / 16 = i / 16
  · simp only [hq, if_true]
    rw [withBit_getLsbD _ _ _ _ (by omega)]
    have e : (15 - j % 16 = 15 - i % 16) ↔ j = i := by omega
    simp only [e]
  · have : j ≠ i := by rintro rfl; exact hq rfl
    simp [hq, this]

/-- What `MemWrite` does (20_memory.md R43): the top `n` bits of `v` at `i .. i+n-1`, every other stored bit as before. -/
theorem State.storedBit_memWrite (s : State) (i : Nat) (v : BitVec 16) (n : Nat) (j : Nat) :
    (s.memWrite i v n).storedBit j = if i ≤ j ∧ j < i + n then v.getLsbD (15 - (j - i)) else s.storedBit j := by
  induction n with
  | zero =>
    have : ¬ (i ≤ j ∧ j < i + 0) := by omega
    simp only [State.memWrite, if_neg this]
  | succ n ih =>
    rw [State.memWrite, State.storedBit_storeBit, ih]
    by_cases h1 : j = i + n
    · have e : j - i = n := by omega
      have e2 : i ≤ j ∧ j < i + (n + 1) := by omega
      simp [h1]
    · have e : (i ≤ j ∧ j < i + (n + 1)) ↔ (i ≤ j ∧ j < i + n) := by omega
      simp only [h1, if_false, e]

/-- A byte that holds none of the offsets `i .. i+n-1` reads as before a `MemWrite` there. -/
theorem State.read_memWrite (s : State) (i : Nat) (v : BitVec 16) (n : Nat) (a : Nat)
    (h : ∀ k, k < n → a ≠ (i + k) / 8) : Memory.read (s.memWrite i v n).mem a = Memory.read s.mem a := by
  refine State.read_eq_of_storedBit s _ a fun k hk => ?_
  rw [State.storedBit_memWrite, if_neg]
  rintro ⟨h1, h2⟩
  exact h (8 * a + k - i) (by omega) (by omega)

theorem State.wf_setAtom {s : State} (h : Memory.WF s.mem) (j : Nat) (v : Atom) : Memory.WF (s.setAtom j v).mem :=
  Memory.wf_write (Memory.wf_write h _ _) _ _

/-- `MemWrite` keeps the canonical form. -/
theorem State.wf_memWrite {s : State} (h : Memory.WF s.mem) (i : Nat) (v : BitVec 16) (n : Nat) : Memory.WF (s.memWrite i v n).mem := by
  induction n with
  | zero => exact h
  | succ n ih => exact State.wf_setAtom ih _ _

/-- A cell listed after storing a bit was listed before or is one of the two bytes of that bit's atom. -/
theorem State.mem_storeBit {s : State} {i : Nat} {b : Bool} {c : Host.Cell} (h : c ∈ (s.storeBit i b).mem) : c ∈ s.mem ∨ c.1 / 2 = i / 16 := by
  rcases Memory.mem_write h with rfl | h
  · right; simp only; omega
  · rcases Memory.mem_write h with rfl | h
    · right; simp only; omega
    · exact .inl h

/-- A cell listed after a `MemWrite` was listed before or belongs to the atom of a written offset. -/
theorem State.mem_memWrite {s : State} {i : Nat} {v : BitVec 16} {n : Nat} {c : Host.Cell} (h : c ∈ (s.memWrite i v n).mem) :
    c ∈ s.mem ∨ ∃ k, k < n ∧ c.1 / 2 = (i + k) / 16 := by
  induction n with
  | zero => exact .inl h
  | succ n ih =>
    rcases State.mem_storeBit h with h | h
    · rcases ih h with h | ⟨k, hk, h⟩
      · exact .inl h
      · exact .inr ⟨k, by omega, h⟩
    · exact .inr ⟨n, by omega, h⟩

/-- A stored bit depends on the storage alone. -/
theorem State.storedBit_congr {s t : State} (h : t.mem = s.mem) (i : Nat) : t.storedBit i = s.storedBit i := by
  unfold State.storedBit State.atom; rw [h]

/-- With nothing listed every stored bit is 1. -/
theorem State.storedBit_of_mem_nil {s : State} (h : s.mem = []) (i : Nat) : s.storedBit i = true := by
  rw [State.storedBit_eq_byte, h, Memory.read_nil]
  have : 7 - i % 8 < 8 := by omega
  generalize 7 - i % 8 = k at this
  revert this; revert k; decide

/-- `Bit` depends on the storage and `COUNT` alone. -/
theorem State.bit_congr {s t : State} (hm : t.mem = s.mem) (hc : t.count = s.count) (i : Nat) : t.bit i = s.bit i := by
  unfold State.bit; rw [hc, State.storedBit_congr hm]

/-- `Bit` at and beyond `COUNT` is 1 (20_memory.md R41). -/
theorem State.bit_of_ge {s : State} {i : Nat} (h : s.count.toNat ≤ i) : s.bit i = true := by
  unfold State.bit; rw [if_neg (by omega)]

/-- `Bit` below `COUNT` is the stored bit (20_memory.md R41). -/
theorem State.bit_of_lt {s : State} {i : Nat} (h : i < s.count.toNat) : s.bit i = s.storedBit i := by
  unfold State.bit; rw [if_pos h]

/-- `Bit'` is `Bit`: every offset past the top lies at or beyond `COUNT` (20_memory.md R48). -/
theorem State.bitNoWrap_eq (s : State) (i : Nat) : s.bitNoWrap i = s.bit i := by
  unfold State.bitNoWrap
  split
  · rfl
  · next h => exact (State.bit_of_ge (by have := s.count.isLt; omega)).symm

/-- The bits of `MemRead(i, n)` (20_memory.md R42): bit `n-1-k` is `Bit(i+k)`, and the bits above are 0. -/
theorem State.memRead_getLsbD (s : State) (i n j : Nat) (hn : n ≤ 16) :
    (s.memRead i n).getLsbD j = (decide (j < n) && s.bit (i + (n - 1 - j))) := by
  induction n generalizing j with
  | zero => simp [State.memRead]
  | succ n ih =>
    rw [State.memRead, BitVec.getLsbD_shiftConcat, State.bitNoWrap_eq]
    cases j with
    | zero => simp
    | succ j =>
      rw [Nat.add_sub_cancel, ih j (by omega)]
      have e1 : n - 1 - j = n + 1 - 1 - (j + 1) := by omega
      have e2 : (j < n) ↔ (j + 1 < n + 1) := by omega
      by_cases h : j < n
      · have : j + 1 < 16 := by omega
        simp [e1, h, this]
      · simp [h]

end Sys2Proof.Machine
end

