-- ==== Sys2Proof/Laws/Ops.lean ====
section
/-! SUPPORT. What the shared append does, the bits of the three append operands, and what the responses and the status register read as. -/

namespace Sys2Proof.Machine

/-! ### The append shared by `APPEND_BIT`, `APPEND_BITS` and `LOAD_BYTE` -/

theorem State.append_of_fits {s : State} {n : Nat} (h : s.count.toNat + n ≤ s.config.capBits) (v : BitVec 16) :
    s.append n v = ((s.memWrite s.count.toNat v n).setCount (s.count.toNat + n)).respond .ok := by
  unfold State.append; rw [if_pos h]

theorem State.append_of_full {s : State} {n : Nat} (h : s.config.capBits < s.count.toNat + n) (v : BitVec 16) :
    s.append n v = s.raiseFault .capacityOverflow := by
  unfold State.append; rw [if_neg (by omega)]

/-- The new `COUNT` is exact: it does not wrap in a legal configuration (40_append.md R83). -/
theorem State.append_count {s : State} {n : Nat} (hl : s.config.Legal) (h : s.count.toNat + n ≤ s.config.capBits) (v : BitVec 16) :
    (s.append n v).count.toNat = s.count.toNat + n := by
  obtain ⟨-, hl, -⟩ := hl
  rw [State.append_of_fits h]
  simp only [State.respond_count, State.setCount_count, BitVec.toNat_ofNat]
  omega

theorem State.append_storedBit {s : State} {n : Nat} (h : s.count.toNat + n ≤ s.config.capBits) (v : BitVec 16) (j : Nat) :
    (s.append n v).storedBit j
      = if s.count.toNat ≤ j ∧ j < s.count.toNat + n then v.getLsbD (15 - (j - s.count.toNat)) else s.storedBit j := by
  rw [State.append_of_fits h, ← State.storedBit_memWrite]
  exact State.storedBit_congr rfl j

theorem State.append_read {s : State} {n : Nat} (h : s.count.toNat + n ≤ s.config.capBits) (v : BitVec 16) (a : Nat)
    (ha : ∀ k, k < n → a ≠ (s.count.toNat + k) / 8) : Memory.read (s.append n v).mem a = Memory.read s.mem a := by
  rw [State.append_of_fits h]
  exact State.read_memWrite s _ v n a ha

/-- `Bit` after an append: the bits below the old `COUNT`, then the appended ones, then 1s. -/
theorem State.append_bit {s : State} {n : Nat} (hl : s.config.Legal) (h : s.count.toNat + n ≤ s.config.capBits) (v : BitVec 16) (j : Nat) :
    (s.append n v).bit j
      = if j < s.count.toNat then s.bit j else if j < s.count.toNat + n then v.getLsbD (15 - (j - s.count.toNat)) else true := by
  by_cases h1 : j < s.count.toNat
  · rw [State.bit_of_lt (by rw [State.append_count hl h]; omega), State.append_storedBit h, if_neg (by omega), if_pos h1, State.bit_of_lt h1]
  · by_cases h2 : j < s.count.toNat + n
    · rw [State.bit_of_lt (by rw [State.append_count hl h]; omega), State.append_storedBit h, if_pos (by omega), if_neg h1, if_pos h2]
    · rw [State.bit_of_ge (by rw [State.append_count hl h]; omega), if_neg h1, if_neg h2]

/-! ### The stored value of each append -/

theorem bitsValue_getLsbD (v j : Nat) : (bitsValue v).getLsbD j = (decide (j < 16) && v.testBit j) := by
  simp [bitsValue, BitVec.getLsbD_ofNat]

/-- `APPEND_BIT b` stores `b` as bit 15. -/
theorem bitValue_top {b : Nat} (h : b ≤ 1) : (bitValue b).getLsbD 15 = decide (b = 1) := by
  have : b = 0 ∨ b = 1 := by omega
  rcases this with rfl | rfl <;> decide

/-- `LOAD_BYTE b` stores `b[7]` first: bit `15 - k` is `b[7 - k]` (20_memory.md R45). -/
theorem byteValue_getLsbD (b k : Nat) (hk : k < 8) : (byteValue b).getLsbD (15 - k) = b.testBit (7 - k) := by
  have h1 : ¬ 15 - k < 8 := by omega
  have h2 : 15 - k - 8 = 7 - k := by omega
  have h3 : 7 - k < 16 := by omega
  have h4 : 7 - k < 8 := by omega
  have h5 : 15 - k < 16 := by omega
  simp only [byteValue, BitVec.getLsbD_shiftLeft, BitVec.getLsbD_setWidth, BitVec.getLsbD_ofNat, h1, h2, h3, h4, h5, decide_true,
    decide_false, Bool.not_false, Bool.true_and]

/-! ### `STATUS` and the responses as words -/

@[simp] theorem Status.word_running : Status.running.word = 0x00#8 := by decide
@[simp] theorem Status.word_illegalOpcode : (Status.faulted .illegalOpcode).word = 0x03#8 := by decide
@[simp] theorem Status.word_reservedField : (Status.faulted .reservedField).word = 0x05#8 := by decide
@[simp] theorem Status.word_operandRange : (Status.faulted .operandRange).word = 0x07#8 := by decide
@[simp] theorem Status.word_capacityOverflow : (Status.faulted .capacityOverflow).word = 0x09#8 := by decide

end Sys2Proof.Machine
end

