-- ==== Sys2Proof/Laws/PerInstr.lean ====
section
/-! SUPPORT. The family `EncodeRow`: the word of a command matches that command's row of spec/opcode_table.json, whatever its operands. -/

namespace Sys2Proof.Laws.EncodeRow

/-- The word of `i` matches the row of its opcode: `(word & mask) == match`. -/
def Statement (i : Instr) : Prop := MatchesRow (encode i) (opcodeFor i)

/-- A word of five fields matches a row if the fields do: the row's mask covers `OP`, `RSV` and the fields the command does not read. -/
theorem matches_of_fields (o : Opcode) (cnt : BitVec 5) (data : BitVec 16) (off : BitVec 32)
    (hc : readsCnt o = false → cnt = 0) (hd : readsData o = false → data = 0) (ho : readsOff o = false → off = 0) :
    MatchesRow (wordOf { op := opField o, rsv := 0, cnt := cnt, data := data, off := off }) o := by
  apply BitVec.eq_of_getLsbD_eq
  intro k hk
  simp only [wordOf, BitVec.getLsbD_and, BitVec.getLsbD_append]
  cases o <;> simp only [readsCnt, readsData, readsOff, forall_const, IsEmpty.forall_iff, Bool.true_eq_false] at hc hd ho <;>
    subst_vars <;> simp only [opField, rowMask, rowMatch] <;> interval_cases k <;> simp

theorem appendBit (b : Nat) : Statement (.appendBit b) :=
  matches_of_fields .appendBit _ _ _ (fun _ => rfl) (fun h => nomatch h) (fun _ => rfl)
theorem appendBits (v n : Nat) : Statement (.appendBits v n) :=
  matches_of_fields .appendBits _ _ _ (fun h => nomatch h) (fun h => nomatch h) (fun _ => rfl)
theorem peekBit (i : Nat) : Statement (.peekBit i) :=
  matches_of_fields .peekBit _ _ _ (fun _ => rfl) (fun _ => rfl) (fun h => nomatch h)
theorem peek (i n : Nat) : Statement (.peek i n) :=
  matches_of_fields .peek _ _ _ (fun h => nomatch h) (fun _ => rfl) (fun h => nomatch h)
theorem serialize : Statement .serialize :=
  matches_of_fields .serialize _ _ _ (fun _ => rfl) (fun _ => rfl) (fun _ => rfl)
theorem clear : Statement .clear :=
  matches_of_fields .clear _ _ _ (fun _ => rfl) (fun _ => rfl) (fun _ => rfl)
theorem loadByte (b : Nat) : Statement (.loadByte b) :=
  matches_of_fields .loadByte _ _ _ (fun _ => rfl) (fun h => nomatch h) (fun _ => rfl)
theorem getCount : Statement .getCount :=
  matches_of_fields .getCount _ _ _ (fun _ => rfl) (fun _ => rfl) (fun _ => rfl)
theorem getStatus : Statement .getStatus :=
  matches_of_fields .getStatus _ _ _ (fun _ => rfl) (fun _ => rfl) (fun _ => rfl)

end Sys2Proof.Laws.EncodeRow
end

