-- ==== Sys2Proof/Laws/Serialize.lean ====
section
/-! SUPPORT. The bits and the number of the serialized bytes, and that they depend on the stream alone. -/

namespace Sys2Proof.Machine

/-- The bits of a serialized byte, first bit most significant (20_memory.md R44). -/
theorem State.streamByte_getLsbD (s : State) (k j : Nat) (hj : j < 8) : (s.streamByte k).getLsbD (7 - j) = s.bit (8 * k + j) := by
  unfold State.streamByte
  rw [BitVec.getLsbD_ofBoolListBE]
  interval_cases j <;> rfl

theorem State.streamBytes_length (s : State) : s.streamBytes.length = s.byteCount := by
  simp [State.streamBytes]

theorem State.streamBytes_getElem? (s : State) (k : Nat) (h : k < s.byteCount) : s.streamBytes[k]? = some (s.streamByte k) := by
  unfold State.streamBytes
  rw [List.getElem?_map, List.getElem?_range h]
  rfl

theorem State.streamBytes_congr {s t : State} (hm : t.mem = s.mem) (hc : t.count = s.count) : t.streamBytes = s.streamBytes := by
  have hb : t.bit = s.bit := funext (State.bit_congr hm hc)
  unfold State.streamBytes State.byteCount State.streamByte
  rw [hb, hc]

theorem stuff_cons (b : Byte) (bs : List Byte) : stuff (b :: bs) = stuffByte b ++ stuff bs := rfl

theorem stuffByte_escaped : stuffByte 0xFF#8 = [0xFF#8, 0x00#8] := by decide

theorem stuffByte_plain {b : Byte} (h : b ≠ 0xFF#8) : stuffByte b = [b] := by
  unfold stuffByte
  exact if_neg h

end Sys2Proof.Machine
end

