-- ==== Sys2Proof/Laws/Step.lean ====
section
/-! SUPPORT. Everything a command and a step can do, said once: later proofs take these cases and never unfold `exec` or `step`. -/

namespace Sys2Proof.Machine

theorem State.takeMove_nil {s : State} (h : s.pending = []) : s.takeMove = none := by simp [State.takeMove, h]

theorem State.takeMove_cons {s : State} {m : HostMove} {rest : List HostMove} (h : s.pending = m :: rest) :
    s.takeMove = some (m, { s with pending := rest }) := by simp [State.takeMove, h]

theorem State.takeMove_putMove (s : State) (m : HostMove) : (s.putMove m).takeMove = some (m, s) := rfl

/-- The five things a command can do. -/
inductive CommandEffect (i : Instr) (s : State) : State → Prop
  /-- Faulted, and not `GET_STATUS`: the answer is `FAULT(CAUSE)` (60_exceptions.md R126). -/
  | absorbed (c : FaultCause) (hs : s.status = .faulted c) (hi : i ≠ .getStatus) : CommandEffect i s (s.respond (.fault c))
  /-- An operand out of range (60_exceptions.md R123). -/
  | outOfRange (hs : s.status = .running) : CommandEffect i s (s.raiseFault .operandRange)
  /-- An append of 1 to 16 bits, which may overflow (40_append.md R82). -/
  | appends (n : Nat) (v : BitVec 16) (hs : s.status = .running) (hn : 1 ≤ n ∧ n ≤ 16)
      (hi : (∃ b, i = .appendBit b) ∨ (∃ v n, i = .appendBits v n) ∨ (∃ b, i = .loadByte b)) : CommandEffect i s (s.append n v)
  /-- A read: bytes, which only `SERIALIZE` emits, and then a response that is no fault (20_memory.md R51). -/
  | reads (bs : List Byte) (r : Response) (hr : ∀ c, r ≠ .fault c) (hs : s.status = .running ∨ i = .getStatus)
      (hb : bs = [] ∨ i = .serialize) : CommandEffect i s ((s.emitAll bs).respond r)
  /-- `CLEAR` (43_control.md R110). -/
  | clears (hs : s.status = .running) (hi : i = .clear) : CommandEffect i s ((s.clearAtoms.setCount 0).respond .ok)

/-- The inversion lemma of `exec`. -/
theorem exec_cases (i : Instr) (s : State) : ∃ t, exec i s = .next t ∧ CommandEffect i s t := by
  by_cases hg : i = .getStatus
  · subst hg
    exact ⟨_, rfl, .reads [] _ (by simp) (.inr rfl) (.inl rfl)⟩
  cases hs : s.status with
  | faulted c =>
    refine ⟨s.respond (.fault c), ?_, .absorbed c hs hg⟩
    cases i <;> first
      | exact absurd rfl hg
      | exact congrArg Host.Outcome.next (State.whileRunning_faulted hs _)
  | running =>
    have go : ∀ k, CommandEffect i s k → exec i s = .next (s.whileRunning k) → ∃ t, exec i s = .next t ∧ CommandEffect i s t :=
      fun k hk he => ⟨k, by rw [he, State.whileRunning_running hs], hk⟩
    have range : ∀ (p : Prop) [Decidable p] (k : State), (p → CommandEffect i s k) →
        CommandEffect i s (if p then k else s.raiseFault .operandRange) := by
      intro p _ k hk
      split
      · next hp => exact hk hp
      · exact .outOfRange hs
    cases i with
    | appendBit b => exact go _ (range _ _ fun _ => .appends 1 _ hs (by omega) (.inl ⟨b, rfl⟩)) rfl
    | appendBits v n => exact go _ (range _ _ fun hn => .appends n _ hs hn (.inr (.inl ⟨v, n, rfl⟩))) rfl
    | peekBit o => exact go _ (.reads [] _ (by simp) (.inl hs) (.inl rfl)) rfl
    | peek o n => exact go _ (range _ _ fun _ => .reads [] _ (by simp) (.inl hs) (.inl rfl)) rfl
    | serialize => exact go _ (.reads _ _ (by simp) (.inl hs) (.inr rfl)) rfl
    | clear => exact go _ (.clears hs rfl) rfl
    | loadByte b => exact go _ (range _ _ fun _ => .appends 8 _ hs (by omega) (.inr (.inr ⟨b, rfl⟩))) rfl
    | getCount => exact go _ (.reads [] _ (by simp) (.inl hs) (.inl rfl)) rfl
    | getStatus => exact absurd rfl hg

/-- The four things a step can do. -/
inductive StepEffect (s : State) : State → Prop
  /-- Nothing was waiting (60_exceptions.md R137). -/
  | idle (hp : s.pending = []) : StepEffect s s
  /-- The host reset the block (70_reset_and_hazards.md R140). -/
  | resets (rest : List HostMove) (hp : s.pending = .reset :: rest) : StepEffect s (State.applyReset { s with pending := rest })
  /-- A word that is no command (60_exceptions.md R121 and R122). -/
  | rejects (w : CommandWord) (rest : List HostMove) (e : DecodeError) (hp : s.pending = .command w :: rest) (hd : decode w = .error e) :
      StepEffect s (State.raiseFault { s with pending := rest } (causeOf e))
  /-- A command. -/
  | commands (w : CommandWord) (rest : List HostMove) (i : Instr) (t : State) (hp : s.pending = .command w :: rest) (hd : decode w = .ok i)
      (ht : CommandEffect i { s with pending := rest } t) : StepEffect s t

/-- The inversion lemma of `step`. -/
theorem step_cases {s t : State} (h : step s = .next t) : StepEffect s t := by
  unfold step at h
  cases hp : s.pending with
  | nil =>
    rw [State.takeMove_nil hp] at h
    injection h with h
    exact h ▸ .idle hp
  | cons m rest =>
    rw [State.takeMove_cons hp] at h
    cases m with
    | reset =>
      injection h with h
      exact h ▸ .resets rest hp
    | command w =>
      simp only [runMove, runWord] at h
      cases hd : decode w with
      | error e =>
        rw [hd] at h
        injection h with h
        exact h ▸ .rejects w rest e hp hd
      | ok i =>
        rw [hd] at h
        obtain ⟨u, hu, he⟩ := exec_cases i { s with pending := rest }
        injection hu.symm.trans h with h
        exact h ▸ .commands w rest i u hp hd he

end Sys2Proof.Machine
end

