-- ==== Sys2Proof/Tests/Slice0.lean ====
section
/-! SUPPORT. Tests of one command or one step each, with expected results from the spec's vectors (95_test_vectors.md) or worked out from its rules, and the witnesses of the statements' hypotheses. -/

namespace Sys2Proof.Tests

open Sys2Proof Sys2Proof.Machine

/-! ### Helpers -/

/-- A running block of a given capacity that holds `n` bits. -/
def block (cap n : Nat) (m : Memory) : State :=
  { config := { capBits := cap }, mem := m, count := BitVec.ofNat 32 n, status := .running, pending := [], events := [] }

/-- One step from a state with one command word waiting answers exactly the next state `t`. -/
def runsTo (s : State) (w : CommandWord) (t : State) : Bool :=
  match step (s.putMove (.command w)) with
  | .next u => u = t
  | .fault _ => false
  | .refused _ => false

/-! ### WellFormed: an ill-formed term for each check (30_encoding.md R73) -/

theorem test_wellFormed_refuses_wide_bit : (Instr.appendBit 0x10000).wellFormed = false := by decide
theorem test_wellFormed_refuses_wide_value : (Instr.appendBits 0x10000 1).wellFormed = false := by decide
theorem test_wellFormed_refuses_wide_append_count : (Instr.appendBits 0 32).wellFormed = false := by decide
theorem test_wellFormed_refuses_wide_bit_offset : (Instr.peekBit 0x100000000).wellFormed = false := by decide
theorem test_wellFormed_refuses_wide_offset : (Instr.peek 0x100000000 1).wellFormed = false := by decide
theorem test_wellFormed_refuses_wide_peek_count : (Instr.peek 0 32).wellFormed = false := by decide
theorem test_wellFormed_refuses_wide_byte : (Instr.loadByte 0x10000).wellFormed = false := by decide
/-- An operand that fits its field but is out of range is well formed: it can be written down, and faults. -/
theorem test_wellFormed_keeps_out_of_range : (Instr.appendBits 0xFFFF 31).wellFormed = true := by decide

/-! ### Decoding: words written out field by field, OP RSV CNT DATA OFF (30_encoding.md R60 and R67) -/

theorem test_decode_appendBit :
    decode (0b0001#4 ++ 0b0000000#7 ++ 0b00000#5 ++ 0b0000000000000001#16 ++ 0b00000000000000000000000000000000#32) = .ok (.appendBit 1) := by decide
theorem test_decode_appendBits :
    decode (0b0010#4 ++ 0b0000000#7 ++ 0b00011#5 ++ 0b1010000000000000#16 ++ 0b00000000000000000000000000000000#32)
      = .ok (.appendBits 0xA000 3) := by decide
theorem test_decode_peekBit :
    decode (0b0011#4 ++ 0b0000000#7 ++ 0b00000#5 ++ 0b0000000000000000#16 ++ 0b00000000000000000000000000010100#32) = .ok (.peekBit 20) := by decide
theorem test_decode_peek :
    decode (0b0100#4 ++ 0b0000000#7 ++ 0b01000#5 ++ 0b0000000000000000#16 ++ 0b00000000000000000000000000000100#32) = .ok (.peek 4 8) := by decide
theorem test_decode_serialize :
    decode (0b0101#4 ++ 0b0000000#7 ++ 0b00000#5 ++ 0b0000000000000000#16 ++ 0b00000000000000000000000000000000#32) = .ok .serialize := by decide
theorem test_decode_clear :
    decode (0b0110#4 ++ 0b0000000#7 ++ 0b00000#5 ++ 0b0000000000000000#16 ++ 0b00000000000000000000000000000000#32) = .ok .clear := by decide
theorem test_decode_loadByte :
    decode (0b0111#4 ++ 0b0000000#7 ++ 0b00000#5 ++ 0b0000000010100101#16 ++ 0b00000000000000000000000000000000#32) = .ok (.loadByte 0xA5) := by decide
theorem test_decode_getCount :
    decode (0b1000#4 ++ 0b0000000#7 ++ 0b00000#5 ++ 0b0000000000000000#16 ++ 0b00000000000000000000000000000000#32) = .ok .getCount := by decide
theorem test_decode_getStatus :
    decode (0b1001#4 ++ 0b0000000#7 ++ 0b00000#5 ++ 0b0000000000000000#16 ++ 0b00000000000000000000000000000000#32) = .ok .getStatus := by decide

/-- F1 and F2: opcodes 0x0 and 0xF are reserved, and so is 0xA. -/
theorem test_decode_reserved_opcodes :
    decode 0x0000000000000000 = .error .illegalOpcode ∧ decode 0xA000000000000000 = .error .illegalOpcode
      ∧ decode 0xF000000000000000 = .error .illegalOpcode := by decide
/-- F3, F4 and the bad `GET_STATUS` of F7: `RSV` set, and a field set that the command does not read. -/
theorem test_decode_reserved_fields :
    decode 0x1020000100000000 = .error .reservedField ∧ decode 0x3000000100000005 = .error .reservedField
      ∧ decode 0x9020000000000000 = .error .reservedField := by decide
theorem test_decodeTableWord_reads_the_row :
    decodeTableWord 64 0x4008000000000004 = some (.peek 4 8) ∧ decodeTableWord 64 0 = none := by decide

/-! ### The assembler's text (30_encoding.md R73 and R74) -/

theorem test_assemble_comment : assembleText "PEEK 4, 8 ; four bits in".toList = some [0x4008000000000004] := by decide +kernel
theorem test_assemble_refuses_wide_count : assembleText "APPEND_BITS 0xA000, 32".toList = none := by decide +kernel
/-- P2, steps 1 to 4. -/
theorem test_assemble_fromBytes :
    assembleText "FROM_BYTES 0xD7, 0xFF, 63".toList
      = some [0x6000000000000000, 0x700000D700000000, 0x700000FF00000000, 0x7000003F00000000] := by decide +kernel

/-! ### One step of each command -/

/-- A1: from the empty stream, `APPEND_BIT 0` leaves `ATOM[0] = 0x7FFF` (40_append.md R80). -/
theorem test_appendBit_zero :
    runsTo (block 64 0 []) 0x1000000000000000 { block 64 1 [(0, 0x7F)] with events := [.resp .ok] } = true := by decide +kernel
/-- A13: `APPEND_BIT 2` is out of range. -/
theorem test_appendBit_two_faults :
    runsTo (block 64 0 []) 0x1000000200000000
      { block 64 0 [] with status := .faulted .operandRange, events := [.resp (.fault .operandRange)] } = true := by decide +kernel
/-- A6: after `01101`, `APPEND_BITS 0x1234, 16` straddles atoms 0 and 1 and leaves `0x6891`, `0xA7FF`. -/
theorem test_appendBits_straddles :
    runsTo (block 64 5 [(0, 0x6F)]) 0x2010123400000000
      { block 64 21 [(0, 0x68), (1, 0x91), (2, 0xA7)] with events := [.resp .ok] } = true := by decide +kernel
/-- A15: 10 + 7 > 16, and the 6 bits that would fit are not appended. -/
theorem test_appendBits_overflow :
    runsTo (block 16 10 [(0, 0x00), (1, 0x3F)]) 0x2007FC0000000000
      { block 16 10 [(0, 0x00), (1, 0x3F)] with status := .faulted .capacityOverflow, events := [.resp (.fault .capacityOverflow)] } = true := by
  decide +kernel
/-- L7 and L8 are one bit apart: offset 15 is stored, offset 16 is `COUNT`. -/
theorem test_peekBit_last_stored :
    runsTo (block 64 16 [(0, 0xA5), (1, 0x3C)]) 0x300000000000000F
      { block 64 16 [(0, 0xA5), (1, 0x3C)] with events := [.resp (.value 0)] } = true := by decide +kernel
theorem test_peekBit_sentinel :
    runsTo (block 64 16 [(0, 0xA5), (1, 0x3C)]) 0x3000000000000010
      { block 64 16 [(0, 0xA5), (1, 0x3C)] with events := [.resp (.value 1)] } = true := by decide +kernel
/-- L5: 4 stored bits `1100`, 4 padding 1s. -/
theorem test_peek_into_padding :
    runsTo (block 64 16 [(0, 0xA5), (1, 0x3C)]) 0x400800000000000C
      { block 64 16 [(0, 0xA5), (1, 0x3C)] with events := [.resp (.value 0xCF)] } = true := by decide +kernel
/-- L11: a read that runs off the top of the offset space does not wrap. -/
theorem test_peek_no_wrap :
    runsTo (block 64 16 [(0, 0x00), (1, 0x00)]) 0x40100000FFFFFFFF
      { block 64 16 [(0, 0x00), (1, 0x00)] with events := [.resp (.value 0xFFFF)] } = true := by decide +kernel
/-- S5: a `0x00` byte is not escaped; the padded last byte `0xFF` is. -/
theorem test_serialize_stuffs :
    runsTo (block 64 28 [(2, 0x00)]) 0x5000000000000000
      { block 64 28 [(2, 0x00)] with
        events := [.byte 0xFF, .byte 0x00, .byte 0xFF, .byte 0x00, .byte 0x00, .byte 0xFF, .byte 0x00, .resp .ok] } = true := by decide +kernel
/-- S2: the partial byte is padded with 1s. -/
theorem test_serialize_pads :
    runsTo (block 64 3 [(0, 0xBF)]) 0x5000000000000000 { block 64 3 [(0, 0xBF)] with events := [.byte 0xBF, .resp .ok] } = true := by
  decide +kernel
/-- C1: `CLEAR` empties the stream. -/
theorem test_clear :
    runsTo (block 64 16 [(0, 0x00), (1, 0x00)]) 0x6000000000000000 { block 64 0 [] with events := [.resp .ok] } = true := by decide +kernel
/-- P3, step 6: while faulted, `CLEAR` is not performed. -/
theorem test_clear_while_faulted :
    runsTo { block 32 32 [(2, 0x12), (3, 0x34)] with status := .faulted .capacityOverflow } 0x6000000000000000
      { block 32 32 [(2, 0x12), (3, 0x34)] with status := .faulted .capacityOverflow, events := [.resp (.fault .capacityOverflow)] } = true := by
  decide +kernel
/-- C3: `LOAD_BYTE 0x00` after one bit: the byte is not aligned. -/
theorem test_loadByte_unaligned :
    runsTo (block 64 1 []) 0x7000000000000000 { block 64 9 [(0, 0x80), (1, 0x7F)] with events := [.resp .ok] } = true := by decide +kernel
/-- L1: `b[7]` is appended first. -/
theorem test_loadByte_msb_first :
    runsTo (block 64 0 []) 0x700000A500000000 { block 64 8 [(0, 0xA5)] with events := [.resp .ok] } = true := by decide +kernel
/-- A10: `GET_COUNT` answers 21. -/
theorem test_getCount :
    runsTo (block 64 21 [(0, 0x68), (1, 0x91), (2, 0xA7)]) 0x8000000000000000
      { block 64 21 [(0, 0x68), (1, 0x91), (2, 0xA7)] with events := [.resp (.value 0x15)] } = true := by decide +kernel
/-- P3, step 5: after a `CAPACITY_OVERFLOW`, `GET_STATUS` answers 0x09. -/
theorem test_getStatus_faulted :
    runsTo { block 32 32 [] with status := .faulted .capacityOverflow } 0x9000000000000000
      { block 32 32 [] with status := .faulted .capacityOverflow, events := [.resp (.value 0x09)] } = true := by decide +kernel
/-- C4: after reset, `GET_STATUS` answers 0. -/
theorem test_getStatus_reset :
    runsTo State.reset 0x9000000000000000 { State.reset with events := [.resp (.value 0)] } = true := by decide +kernel

/-- F5: RESERVED_FIELD outranks OPERAND_RANGE. -/
theorem test_reserved_field_first :
    runsTo (block 64 0 []) 0x2000FFFF00000001
      { block 64 0 [] with status := .faulted .reservedField, events := [.resp (.fault .reservedField)] } = true := by decide +kernel
/-- F6: OPERAND_RANGE outranks CAPACITY_OVERFLOW. -/
theorem test_operand_range_before_capacity :
    runsTo (block 16 16 []) 0x2014FFFF00000000
      { block 16 16 [] with status := .faulted .operandRange, events := [.resp (.fault .operandRange)] } = true := by decide +kernel
/-- F7: a later bad word does not overwrite `CAUSE`; `GET_STATUS` with `RSV = 1` is not the exact word. -/
theorem test_cause_is_the_first :
    runsTo { block 64 4 [] with status := .faulted .illegalOpcode } 0x9020000000000000
      { block 64 4 [] with status := .faulted .illegalOpcode, events := [.resp (.fault .illegalOpcode)] } = true := by decide +kernel
/-- P3, step 9: reset ends the faulted state, empties the stream, and produces nothing. -/
theorem test_reset_event :
    (match step (State.putMove { block 32 32 [(2, 0x12), (3, 0x34)] with status := .faulted .capacityOverflow } .reset) with
      | .next t => t = block 32 0 []
      | .fault _ => false
      | .refused _ => false) = true := by decide +kernel
/-- An `APPEND_BIT` word runs as the first instruction after reset. -/
theorem test_withFetchWord :
    (match step (State.reset.withFetchWord 64 0x1000000000000000) with
      | .next t => decide (t.count = 1 ∧ t.events = [.resp .ok])
      | .fault _ => false
      | .refused _ => false) = true := by decide +kernel

/-! ### Witnesses: a concrete state and operands that meet the hypotheses of each statement that has any -/

/-- The stream `101` (the example of 40_append.md R81) meets the invariant. -/
theorem witness_Inv : (block 16 3 [(0, 0xBF)]).Inv where
  legal := by decide
  canonical := by decide
  inside := by decide
  count_le := by decide
  padding := by decide +kernel

/-- The same stream, with its third bit the last that was appended, and hidden bits that differ: a host cannot tell them apart. -/
theorem witness_HiddenBitsCannotBeObserved : SameToHost (block 16 3 [(0, 0xBF)]) (block 16 3 [(0, 0xA0), (1, 0x00)]) where
  config := rfl
  count := rfl
  status := rfl
  pending := rfl
  events := rfl
  stored := by decide +kernel

theorem witness_DecodeInvertsEncode : (Instr.peek 0xFFFFFFFF 31).WellFormed ∧ (Instr.appendBits 0xFFFF 31).WellFormed := by decide
theorem witness_EncodeInvertsDecode : decode 0x401F0000FFFFFFFF = .ok (.peek 0xFFFFFFFF 31) := by decide
theorem witness_TableRowsMatchDecode : MatchesRow 0x401F0000FFFFFFFF .peek ∧ ¬ MatchesRow 0x4020000000000000 .peek := by decide
theorem witness_DecodeRefusesExactly :
    OpReserved 0x0000000000000000 ∧ OpReserved 0xA000000000000000 ∧ ¬ OpReserved 0x9000000000000000
      ∧ FieldReserved 0x9000000000000001 ∧ ¬ FieldReserved 0x9000000000000000 := by decide
theorem witness_MemReadIsSumOfBits : (0 : Nat) ≤ 16 ∧ (16 : Nat) ≤ 16 := by decide
theorem witness_MemWriteStoresTopBits : (1 : Nat) ≤ 1 ∧ (1 : Nat) ≤ 16 ∧ (0xA5FF#16 >>> (16 - 3) = 0xA000#16 >>> (16 - 3)) := by decide

/-- One witness for each clause: out of range from 2, full at `COUNT = CAP_BITS`, and the last bit that fits. -/
theorem witness_AppendBitRule :
    ((block 16 0 []).config.Legal ∧ (block 16 0 []).status = .running ∧ (1 : Nat) < 2)
    ∧ ((block 16 16 []).config.Legal ∧ (block 16 16 []).status = .running ∧ (block 16 16 []).config.capBits < (block 16 16 []).count.toNat + 1)
    ∧ ((block 16 15 []).config.Legal ∧ (block 16 15 []).status = .running ∧ (block 16 15 []).count.toNat + 1 ≤ (block 16 15 []).config.capBits) := by
  decide
/-- Counts 0 and 17 out of range; 16 bits with 15 free; 16 bits with 16 free. -/
theorem witness_AppendBitsRule :
    ((0 : Nat) < 1 ∧ (16 : Nat) < 17)
    ∧ ((block 16 1 []).config.Legal ∧ (block 16 1 []).status = .running ∧ (block 16 1 []).config.capBits < (block 16 1 []).count.toNat + 16)
    ∧ ((block 16 0 []).config.Legal ∧ (block 16 0 []).status = .running ∧ (block 16 0 []).count.toNat + 16 ≤ (block 16 0 []).config.capBits) := by
  decide
/-- 256 out of range; 8 bits with 7 free; 8 bits with 8 free. -/
theorem witness_LoadByteRule :
    ((0xFF : Nat) < 0x100)
    ∧ ((block 16 9 []).config.Legal ∧ (block 16 9 []).status = .running ∧ (block 16 9 []).config.capBits < (block 16 9 []).count.toNat + 8)
    ∧ ((block 16 8 []).config.Legal ∧ (block 16 8 []).status = .running ∧ (block 16 8 []).count.toNat + 8 ≤ (block 16 8 []).config.capBits) := by
  decide
theorem witness_AppendsReadBack :
    (block 16 0 []).config.Legal ∧ (block 16 0 []).status = .running ∧ (block 16 0 []).count = 0
      ∧ (∀ p ∈ [((0xA5FF : Nat), (3 : Nat)), (0x8000, 1), (0xFFFF, 12)], p.1 ≤ 0xFFFF ∧ 1 ≤ p.2 ∧ p.2 ≤ 16)
      ∧ totalBits [(0xA5FF, 3), (0x8000, 1), (0xFFFF, 12)] ≤ (block 16 0 []).config.capBits := by decide
theorem witness_AppendBitsIsSingleAppends :
    (block 16 3 [(0, 0xBF)]).Inv ∧ (block 16 3 [(0, 0xBF)]).status = .running
      ∧ (block 16 3 [(0, 0xBF)]).count.toNat + 13 ≤ (block 16 3 [(0, 0xBF)]).config.capBits := ⟨witness_Inv, by decide⟩
theorem witness_PeekAfterAppendSeesBits :
    let s := State.putMove (State.putMove (block 16 3 [(0, 0xBF)]) (.command (encode (.peek 3 13)))) (.command (encode (.appendBits 0x1234 13)))
    s.config.Legal ∧ s.status = .running ∧ s.count.toNat + 13 ≤ s.config.capBits
      ∧ s.pending = .command (encode (.appendBits 0x1234 13)) :: .command (encode (.peek s.count.toNat 13)) :: [] := by decide

/-- A running block, for every statement whose hypotheses are that the block is running and, for `PEEK`, a count in or out of range:
`PeekBitRule`, `PeekRule`, `SerializeRule`, `SerializeRepeats`, `SerializedLengthAndEscapes`, `DestuffInvertsSerialize`, `ClearRule`, `GetCountRule`. -/
theorem witness_running : (block 16 3 [(0, 0xBF)]).status = .running ∧ (16 : Nat) ≤ 16 ∧ (16 : Nat) < 17 := by decide
/-- A faulted block, for `ClearRule`, `OnlyResetLeavesFaulted` and `CommandsAnswerFaultWhileFaulted`. -/
theorem witness_faulted :
    State.status { block 16 3 [(0, 0xBF)] with status := .faulted .operandRange } = .faulted .operandRange ∧ Instr.clear ≠ .getStatus := by decide
theorem witness_PeeksChangeNothingLater :
    (block 16 3 [(0, 0xBF)]).status = .running ∧ ∀ p ∈ [Instr.peekBit 0xFFFFFFFF, .peek 0 16, .peek 2 0], isLegalPeek p = true := by decide
theorem witness_SerializeReloadRoundTrip :
    (block 16 3 [(0, 0xBF)]).Inv ∧ (block 16 3 [(0, 0xBF)]).status = .running
      ∧ (block 16 0 []).config = (block 16 3 [(0, 0xBF)]).config ∧ (block 16 0 []).status = .running := ⟨witness_Inv, by decide⟩
theorem witness_FromBytesLoads :
    (block 16 3 [(0, 0xBF)]).config.Legal ∧ (block 16 3 [(0, 0xBF)]).status = .running
      ∧ 8 * [0xA5#8, 0x3C#8].length ≤ (block 16 3 [(0, 0xBF)]).config.capBits := by decide

/-- One word for each outcome of `FaultsAreTheFirstThatApplies`: the four causes, and none. -/
theorem witness_FaultsAreTheFirstThatApplies :
    (State.putMove (block 16 16 []) (.command 0)).status = .running
    ∧ reportedFault 0x0000000000000000 (block 16 16 []) = some .illegalOpcode
    ∧ reportedFault 0x2000FFFF00000001 (block 16 16 []) = some .reservedField
    ∧ reportedFault 0x2014FFFF00000000 (block 16 16 []) = some .operandRange
    ∧ reportedFault 0x1000000100000000 (block 16 16 []) = some .capacityOverflow
    ∧ reportedFault 0x1000000100000000 (block 16 15 []) = none := by decide
theorem witness_FaultedBlockAbsorbs :
    let s := State.putMove { block 16 3 [(0, 0xBF)] with status := .faulted .operandRange } (.command 0x9000000000000000)
    s.status = .faulted .operandRange ∧ s.pending = .command 0x9000000000000000 :: [] := by decide
theorem witness_OnlyResetLeavesFaulted :
    (match step (State.putMove { block 16 3 [(0, 0xBF)] with status := .faulted .operandRange } (.command 0)) with
      | .next t => decide (t.status = .faulted .operandRange)
      | .fault _ => false
      | .refused _ => false) = true := by decide +kernel
theorem witness_StepRunsDecodedCommand :
    (State.putMove (block 16 3 [(0, 0xBF)]) (.command 0x6000000000000000)).pending = .command 0x6000000000000000 :: []
      ∧ decode 0x6000000000000000 = .ok .clear := by decide
theorem witness_IdleHoldsAllState : (block 16 3 [(0, 0xBF)]).pending = [] := by decide
theorem witness_ResetEvent : (State.putMove (block 16 3 [(0, 0xBF)]) .reset).pending = .reset :: [] := by decide
theorem witness_OneResponsePerCommand :
    (State.putMove (block 16 3 [(0, 0xBF)]) (.command 0x5000000000000000)).pending = .command 0x5000000000000000 :: [] := by decide
theorem witness_ConfigurationNeverChanges : step (block 16 3 [(0, 0xBF)]) = .next (block 16 3 [(0, 0xBF)]) := rfl
/-- For `OnlyClearDecreasesCount`, `WrittenBitsStay` and `InvariantKeptByStep`: a state that meets the invariant, with a command other than `CLEAR` waiting and a written bit. -/
theorem witness_invariant_with_command :
    (State.putMove (block 16 3 [(0, 0xBF)]) (.command 0x1000000100000000)).Inv
      ∧ (State.putMove (block 16 3 [(0, 0xBF)]) (.command 0x1000000100000000)).pending = .command 0x1000000100000000 :: []
      ∧ (0x1000000100000000#64 ≠ 0x6000000000000000#64)
      ∧ (2 : Nat) < (State.putMove (block 16 3 [(0, 0xBF)]) (.command 0x1000000100000000)).count.toNat
      ∧ ∃ t, step (State.putMove (block 16 3 [(0, 0xBF)]) (.command 0x1000000100000000)) = .next t :=
  ⟨⟨witness_Inv.legal, witness_Inv.canonical, witness_Inv.inside, witness_Inv.count_le, witness_Inv.padding⟩, rfl, by decide, by decide, _, rfl⟩
theorem witness_InvariantAtReset : Config.Legal { capBits := 16 } ∧ Config.Legal { capBits := 0xFFFFFFF0 } := by decide

end Sys2Proof.Tests
end

section
/-! SUPPORT. The facts about steps, operations and decoding that the proofs about the state share. -/

namespace Sys2Proof

/-- What a word that decodes holds: a defined `OP`, 0 in `RSV` and in every field its command does not read (30_encoding.md R72). -/
theorem decode_ok {w : CommandWord} {i : Instr} (h : decode w = .ok i) :
    ∃ o, opcodeOf (fieldsOf w).op = some o ∧ (fieldsOf w).rsv = 0 ∧ unusedFieldSet o (fieldsOf w) = false ∧ instrOf o (fieldsOf w) = i := by
  simp only [decode] at h
  split at h
  · cases h
  · next o ho =>
    split at h
    · cases h
    · next hr =>
      split at h
      · cases h
      · next hu => exact ⟨o, ho, not_not.1 hr, Bool.eq_false_iff.2 hu, Except.ok.inj h⟩

/-- Fields that hold 0 wherever their command reads nothing are that command's fields (30_encoding.md R73). -/
theorem fieldsFor_instrOf {o : Opcode} {f : Fields} (hop : f.op = opField o) (hr : f.rsv = 0) (hu : unusedFieldSet o f = false) :
    fieldsFor (instrOf o f) = f := by
  obtain ⟨op, rsv, cnt, data, off⟩ := f
  subst hop hr
  cases o <;> simp [unusedFieldSet, readsCnt, readsData, readsOff] at hu <;>
    simp [instrOf, fieldsFor, opcodeFor, cntFor, dataFor, offFor, hu]

/-- A word that decodes is the word of the command it decodes to (30_encoding.md R69). -/
theorem encode_of_decode {w : CommandWord} {i : Instr} (h : decode w = .ok i) : encode i = w := by
  obtain ⟨o, ho, hr, hu, rfl⟩ := decode_ok h
  rw [encode, fieldsFor_instrOf (opField_of_opcodeOf ho) hr hu, wordOf_fieldsOf]

end Sys2Proof

namespace Sys2Proof.Machine

/-! ### One step, by the move that is waiting -/

theorem step_of_nil {s : State} (h : s.pending = []) : step s = .next s := by
  simp only [step, State.takeMove_nil h]

theorem step_of_cons {s : State} {m : HostMove} {rest : List HostMove} (h : s.pending = m :: rest) :
    step s = runMove m { s with pending := rest } := by
  simp only [step, State.takeMove_cons h]

theorem runWord_of_error {w : CommandWord} {e : DecodeError} (h : decode w = .error e) (s : State) :
    runWord w s = .next (s.raiseFault (causeOf e)) := by
  simp only [runWord, h]

theorem runWord_of_ok {w : CommandWord} {i : Instr} (h : decode w = .ok i) (s : State) : runWord w s = exec i s := by
  simp only [runWord, h]

/-! ### What every append leaves, whether it fits or not -/

@[simp] theorem State.append_config (s : State) (n : Nat) (v : BitVec 16) : (s.append n v).config = s.config := by
  unfold State.append; split <;> simp

@[simp] theorem State.append_pending (s : State) (n : Nat) (v : BitVec 16) : (s.append n v).pending = s.pending := by
  unfold State.append; split <;> simp

/-- Taking a fault produces one response and no byte (60_exceptions.md R120). -/
theorem State.raiseFault_events (s : State) (c : FaultCause) : ∃ r, (s.raiseFault c).events = s.events ++ [.resp r] := by
  cases hs : s.status with
  | running => exact ⟨.fault c, by rw [State.raiseFault_running hs]⟩
  | faulted first => exact ⟨.fault first, by rw [State.raiseFault_faulted hs, State.respond_events]⟩

/-- An append produces one response and no byte. -/
theorem State.append_events (s : State) (n : Nat) (v : BitVec 16) : ∃ r, (s.append n v).events = s.events ++ [.resp r] := by
  unfold State.append
  split
  · exact ⟨.ok, by simp⟩
  · exact s.raiseFault_events _

/-- With nothing listed every atom is `0xFFFF` (10_state.md R30). -/
theorem State.atom_of_mem_nil {s : State} (h : s.mem = []) (j : Nat) : s.atom j = 0xFFFF#16 := by
  simp only [State.atom, h, Memory.read_nil]
  decide

/-! ### The codes of the causes -/

/-- The cause codes are 1 to 4 (10_state.md R25). -/
theorem FaultCause.code_range (c : FaultCause) : 1 ≤ c.code.toNat ∧ c.code.toNat ≤ 4 := by
  cases c <;> decide

end Sys2Proof.Machine
end

section
/-! PROOF. The values of the state: `STATUS`, the responses, reset (10_state.md R25, R27 and R30). -/

namespace Sys2Proof.Machine

/-- Settles O31: over the five values of `STATUS`. -/
theorem statusFields : Obligations.StatusFields := by
  intro st
  cases st with
  | running => decide
  | faulted c => cases c <;> decide

/-- Settles O32: a fault's `VAL` is its cause code, which zero extension keeps. -/
theorem responseWords : Obligations.ResponseWords := by
  refine ⟨⟨rfl, rfl⟩, fun v => ⟨rfl, rfl⟩, fun c => ⟨rfl, ?_, c.code_range⟩, fun r => ?_⟩
  · exact BitVec.toNat_setWidth_of_le (by decide)
  · cases r <;> simp [Response.tag]

/-- Settles O40: nothing is listed at reset, so every atom reads as blank. -/
theorem resetValues : Obligations.ResetValues :=
  ⟨fun _ => ⟨State.atom_of_mem_nil rfl, rfl, Status.word_running, rfl, rfl, rfl⟩, rfl⟩

/-- Settles O37. -/
theorem stepRunsDecodedCommand : Obligations.StepRunsDecodedCommand := by
  intro s w rest i hp hd
  exact (step_of_cons hp).trans (runWord_of_ok hd _)

end Sys2Proof.Machine
end

section
/-! PROOF. Every command is finished in one step with one response (10_state.md R26 to R28). -/

namespace Sys2Proof.Machine

/-- The events of a command: bytes, which only `SERIALIZE` on a running block emits, and then one response. -/
theorem exec_events (i : Instr) (s : State) : ∃ (t : State) (bs : List Byte) (r : Response),
    exec i s = .next t ∧ t.pending = s.pending ∧ t.events = s.events ++ bs.map Event.byte ++ [.resp r]
      ∧ (bs ≠ [] → i = .serialize ∧ s.status = .running ∧ r = .ok) := by
  by_cases hser : i = .serialize ∧ s.status = .running
  · obtain ⟨rfl, hs⟩ := hser
    refine ⟨_, stuff s.streamBytes, .ok, congrArg Host.Outcome.next (State.whileRunning_running hs _), ?_⟩
    simp [hs]
  · obtain ⟨t, hx, ht⟩ := exec_cases i s
    suffices hno : t.pending = s.pending ∧ ∃ r, t.events = s.events ++ [.resp r] by
      obtain ⟨hp, r, he⟩ := hno
      exact ⟨t, [], r, hx, hp, by simpa using he, fun h => absurd rfl h⟩
    cases ht with
    | absorbed c => exact ⟨rfl, _, rfl⟩
    | outOfRange => exact ⟨by simp, s.raiseFault_events _⟩
    | appends n v => exact ⟨by simp, s.append_events n v⟩
    | reads bs r hr hs hb =>
      have hbs : bs = [] := hb.resolve_right fun hi => hser ⟨hi, hs.resolve_right (by simp [hi])⟩
      exact ⟨by simp, r, by simp [hbs]⟩
    | clears => exact ⟨rfl, _, rfl⟩

/-- Settles O41: a word that is no command is answered by its fault, any other by `exec_events`. -/
theorem oneResponsePerCommand : Obligations.OneResponsePerCommand := by
  intro s w rest hp
  have hstep : step s = runWord w { s with pending := rest } := step_of_cons hp
  cases hd : decode w with
  | error e =>
    obtain ⟨r, hr⟩ := State.raiseFault_events { s with pending := rest } (causeOf e)
    exact ⟨_, [], r, hstep.trans (runWord_of_error hd _), by simp, by simpa using hr, fun h => absurd rfl h⟩
  | ok i =>
    obtain ⟨t, bs, r, hx, hpend, hev, hbs⟩ := exec_events i { s with pending := rest }
    refine ⟨t, bs, r, hstep.trans ((runWord_of_ok hd _).trans hx), hpend, hev, fun h => ?_⟩
    obtain ⟨rfl, hs, hr⟩ := hbs h
    exact ⟨(encode_of_decode hd).symm, hs, hr⟩

end Sys2Proof.Machine
end

section
/-! PROOF. The invariant: it holds at reset and every step keeps it (10_state.md R22 to R24). -/

namespace Sys2Proof.Machine

/-- The invariant speaks of the configuration, the storage and `COUNT` alone. -/
theorem State.Inv.congr {s t : State} (h : s.Inv) (hconfig : t.config = s.config) (hmem : t.mem = s.mem)
    (hcount : t.count = s.count) : t.Inv where
  legal := hconfig ▸ h.legal
  canonical := hmem ▸ h.canonical
  inside := by rw [hmem, hconfig]; exact h.inside
  count_le := by rw [hcount, hconfig]; exact h.count_le
  padding := by
    rw [hcount, hconfig]
    exact fun i hlo hhi => (State.storedBit_congr hmem i).trans (h.padding i hlo hhi)

/-- An empty stream with nothing listed meets the invariant. -/
theorem State.inv_of_blank {s : State} (hl : s.config.Legal) (hmem : s.mem = []) (hcount : s.count = 0) : s.Inv where
  legal := hl
  canonical := hmem ▸ Memory.wf_nil
  inside := by simp [hmem]
  count_le := by simp [hcount]
  padding := fun i _ _ => State.storedBit_of_mem_nil hmem i

/-- Settles O45. -/
theorem invariantAtReset : Obligations.InvariantAtReset :=
  ⟨fun _ hl => State.inv_of_blank hl rfl rfl, State.inv_of_blank (by decide) rfl rfl⟩

theorem State.Inv.raiseFault {s : State} (h : s.Inv) (c : FaultCause) : (s.raiseFault c).Inv :=
  h.congr (by simp) (by simp) (by simp)

/-- An append that fits keeps the invariant: it lists only bytes of atoms below `CAP_BITS / 16`, and leaves the padding above its last bit. -/
theorem State.Inv.append_of_fits {s : State} (h : s.Inv) {n : Nat} (hfit : s.count.toNat + n ≤ s.config.capBits) (v : BitVec 16) :
    (s.append n v).Inv where
  legal := (s.append_config n v).symm ▸ h.legal
  canonical := by
    rw [State.append_of_fits hfit]
    exact State.wf_memWrite h.canonical _ _ _
  inside := by
    intro c hc
    rw [State.append_of_fits hfit] at hc
    rw [State.append_config]
    rcases State.mem_memWrite hc with hold | ⟨k, hk, hatom⟩
    · exact h.inside c hold
    · obtain ⟨-, -, hmod⟩ := h.legal
      unfold Config.nAtoms
      omega
  count_le := by
    rw [State.append_count h.legal hfit, State.append_config]
    exact hfit
  padding := by
    intro i hlo hhi
    rw [State.append_count h.legal hfit] at hlo
    rw [State.append_config] at hhi
    rw [State.append_storedBit hfit, if_neg (by omega)]
    exact h.padding i (by omega) hhi

theorem State.Inv.append {s : State} (h : s.Inv) (n : Nat) (v : BitVec 16) : (s.append n v).Inv := by
  by_cases hfit : s.count.toNat + n ≤ s.config.capBits
  · exact h.append_of_fits hfit v
  · rw [State.append_of_full (by omega)]
    exact h.raiseFault _

theorem CommandEffect.inv {i : Instr} {s t : State} (ht : CommandEffect i s t) (h : s.Inv) : t.Inv := by
  cases ht with
  | absorbed => exact h.congr rfl rfl rfl
  | outOfRange => exact h.raiseFault _
  | appends n v => exact h.append n v
  | reads => exact h.congr (by simp) (by simp) (by simp)
  | clears => exact State.inv_of_blank h.legal rfl rfl

theorem State.Inv.takeMove {s : State} (h : s.Inv) (rest : List HostMove) : State.Inv { s with pending := rest } :=
  h.congr rfl rfl rfl

/-- Settles O46: by the four things a step can do. -/
theorem invariantKeptByStep : Obligations.InvariantKeptByStep := by
  intro s t h hstep
  cases step_cases hstep with
  | idle => exact h
  | resets rest => exact State.inv_of_blank h.legal rfl rfl
  | rejects w rest => exact (h.takeMove rest).raiseFault _
  | commands w rest i _ hp hd ht => exact ht.inv (h.takeMove rest)

end Sys2Proof.Machine
end

section
/-! PROOF. `COUNT` never decreases but by `CLEAR` and never passes `CAP_BITS` (10_state.md R24; 40_append.md R83). -/

namespace Sys2Proof.Machine

/-- `COUNT` in `t` is what it is in `s` or at most `n` more, and within the capacity of `s`. -/
def CountGrows (n : Nat) (s t : State) : Prop :=
  s.count.toNat ≤ t.count.toNat ∧ t.count.toNat ≤ s.count.toNat + n ∧ t.count.toNat ≤ s.config.capBits

theorem CountGrows.of_eq {n : Nat} {s t : State} (h : s.Inv) (hcount : t.count = s.count) : CountGrows n s t := by
  unfold CountGrows
  rw [hcount]
  exact ⟨le_rfl, Nat.le_add_right _ _, h.count_le⟩

theorem CountGrows.mono {n m : Nat} {s t : State} (h : CountGrows n s t) (hnm : n ≤ m) : CountGrows m s t := by
  obtain ⟨hlow, hadd, hcap⟩ := h
  exact ⟨hlow, by omega, hcap⟩

theorem countGrows_append {s : State} (h : s.Inv) (n : Nat) (v : BitVec 16) : CountGrows n s (s.append n v) := by
  by_cases hfit : s.count.toNat + n ≤ s.config.capBits
  · have hcount := State.append_count h.legal hfit v
    exact ⟨by omega, hcount.le, hcount.le.trans hfit⟩
  · rw [State.append_of_full (by omega)]
    exact .of_eq h (by simp)

theorem CommandEffect.countGrows {i : Instr} {s t : State} (ht : CommandEffect i s t) (h : s.Inv) (hi : i ≠ .clear) :
    CountGrows 16 s t := by
  cases ht with
  | absorbed => exact .of_eq h rfl
  | outOfRange => exact .of_eq h (by simp)
  | appends n v hs hn => exact (countGrows_append h n v).mono hn.2
  | reads => exact .of_eq h (by simp)
  | clears hs hc => exact absurd hc hi

/-- Settles O43: a word other than `CLEAR`'s decodes to another command or to none. -/
theorem onlyClearDecreasesCount : Obligations.OnlyClearDecreasesCount := by
  intro s t w rest h hp hw hstep
  cases step_cases hstep with
  | idle => exact CountGrows.of_eq h rfl
  | resets rest' hp' => simp [hp] at hp'
  | rejects => exact CountGrows.of_eq h (by simp)
  | commands w' rest' i _ hp' hd ht =>
    obtain ⟨rfl, rfl⟩ : w = w' ∧ rest = rest' := by simpa [hp] using hp'
    have hi : i ≠ .clear := by
      rintro rfl
      exact hw (encode_of_decode hd).symm
    exact ht.countGrows (h.takeMove rest) hi

end Sys2Proof.Machine
end

section
/-! PROOF. What no step can tell apart: the stored bits at and beyond `COUNT`, and what was produced before (10_state.md R23, R32 and R34). Both are relations between states
that every operation keeps, so the steps are gone through once, for any such relation. -/

namespace Sys2Proof.Machine

/-- A relation that the operations of Ops.lean keep: related states agree on everything a command reads, and an operation that writes answers related states. -/
structure KeptByOps (R : State → State → Prop) : Prop where
  config : ∀ {s t}, R s t → t.config = s.config
  count : ∀ {s t}, R s t → t.count = s.count
  status : ∀ {s t}, R s t → t.status = s.status
  pending : ∀ {s t}, R s t → t.pending = s.pending
  bit : ∀ {s t}, R s t → ∀ i, t.bit i = s.bit i
  respond : ∀ {s t}, R s t → ∀ r, R (s.respond r) (t.respond r)
  emit : ∀ {s t}, R s t → ∀ b, R (s.emit b) (t.emit b)
  setStatus : ∀ {s t}, R s t → ∀ st, R { s with status := st } { t with status := st }
  setPending : ∀ {s t}, R s t → ∀ ms, R { s with pending := ms } { t with pending := ms }
  appendBits : ∀ {s t}, R s t → ∀ v n,
    R ((s.memWrite s.count.toNat v n).setCount (s.count.toNat + n)) ((t.memWrite t.count.toNat v n).setCount (t.count.toNat + n))
  clear : ∀ {s t}, R s t → R (s.clearAtoms.setCount 0) (t.clearAtoms.setCount 0)

/-- Both outcomes are next states, and related. -/
def NextRelated (R : State → State → Prop) (o o' : Host.Outcome State Fault Refusal) : Prop :=
  ∃ s t, o = .next s ∧ o' = .next t ∧ R s t

theorem NextRelated.of_next {R : State → State → Prop} {s t : State} (h : R s t) : NextRelated R (.next s) (.next t) :=
  ⟨s, t, rfl, rfl, h⟩

/-! ### Reads depend on `Bit` and `COUNT` alone -/

theorem State.memRead_congr_bit {s t : State} (h : ∀ i, t.bit i = s.bit i) (i n : Nat) : t.memRead i n = s.memRead i n := by
  induction n with
  | zero => rfl
  | succ n ih => rw [State.memRead, State.memRead, ih, State.bitNoWrap_eq, State.bitNoWrap_eq, h]

theorem State.streamBytes_congr_bit {s t : State} (h : ∀ i, t.bit i = s.bit i) (hc : t.count = s.count) : t.streamBytes = s.streamBytes := by
  have hb : t.bit = s.bit := funext h
  unfold State.streamBytes State.byteCount State.streamByte
  rw [hb, hc]

/-! ### A relation the operations keep is kept by every step -/

namespace KeptByOps

section
variable {R : State → State → Prop} (hR : KeptByOps R)
include hR

theorem emitAll {s t : State} (h : R s t) (bs : List Byte) : R (s.emitAll bs) (t.emitAll bs) := by
  induction bs generalizing s t with
  | nil => exact h
  | cons b bs ih => exact ih (hR.emit h b)

theorem raiseFault {s t : State} (h : R s t) (c : FaultCause) : R (s.raiseFault c) (t.raiseFault c) := by
  unfold State.raiseFault
  rw [hR.status h]
  cases s.status with
  | running => exact hR.respond (hR.setStatus h _) _
  | faulted first => exact hR.respond h _

theorem whileRunning {s t k l : State} (h : R s t) (hk : R k l) : R (s.whileRunning k) (t.whileRunning l) := by
  unfold State.whileRunning
  rw [hR.status h]
  cases s.status with
  | running => exact hk
  | faulted first => exact hR.respond h _

theorem append {s t : State} (h : R s t) (n : Nat) (v : BitVec 16) : R (s.append n v) (t.append n v) := by
  by_cases hfit : s.count.toNat + n ≤ s.config.capBits
  · have hfit' : t.count.toNat + n ≤ t.config.capBits := by rwa [hR.count h, hR.config h]
    rw [State.append_of_fits hfit, State.append_of_fits hfit']
    exact hR.respond (hR.appendBits h v n) _
  · have hfull' : ¬ t.count.toNat + n ≤ t.config.capBits := by rwa [hR.count h, hR.config h]
    rw [State.append_of_full (by omega), State.append_of_full (by omega)]
    exact hR.raiseFault h _

/-- A command with a range check on its operand. -/
theorem ranged {s t k l : State} (h : R s t) (p : Prop) [Decidable p] (hk : R k l) :
    R (if p then k else s.raiseFault .operandRange) (if p then l else t.raiseFault .operandRange) := by
  split
  · exact hk
  · exact hR.raiseFault h _

theorem nextRelated_exec {s t : State} (h : R s t) (i : Instr) : NextRelated R (exec i s) (exec i t) := by
  cases i with
  | appendBit b => exact .of_next (hR.whileRunning h (hR.ranged h _ (hR.append h _ _)))
  | appendBits v n => exact .of_next (hR.whileRunning h (hR.ranged h _ (hR.append h _ _)))
  | peekBit o =>
    refine .of_next (hR.whileRunning h ?_)
    rw [hR.bit h]
    exact hR.respond h _
  | peek o n =>
    refine .of_next (hR.whileRunning h (hR.ranged h _ ?_))
    rw [State.memRead_congr_bit (hR.bit h)]
    exact hR.respond h _
  | serialize =>
    refine .of_next (hR.whileRunning h ?_)
    rw [State.streamBytes_congr_bit (hR.bit h) (hR.count h)]
    exact hR.respond (hR.emitAll h _) _
  | clear => exact .of_next (hR.whileRunning h (hR.respond (hR.clear h) _))
  | loadByte b => exact .of_next (hR.whileRunning h (hR.ranged h _ (hR.append h _ _)))
  | getCount =>
    refine .of_next (hR.whileRunning h ?_)
    rw [hR.count h]
    exact hR.respond h _
  | getStatus =>
    simp only [exec, execGetStatus, hR.status h]
    exact .of_next (hR.respond h _)

theorem nextRelated_runMove {s t : State} (h : R s t) (m : HostMove) : NextRelated R (runMove m s) (runMove m t) := by
  cases m with
  | reset => exact .of_next (hR.setStatus (hR.clear h) .running)
  | command w =>
    cases hd : decode w with
    | error e =>
      simp only [runMove, runWord_of_error hd]
      exact .of_next (hR.raiseFault h _)
    | ok i =>
      simp only [runMove, runWord_of_ok hd]
      exact hR.nextRelated_exec h i

theorem nextRelated_step {s t : State} (h : R s t) : NextRelated R (step s) (step t) := by
  have hpend := hR.pending h
  cases hp : s.pending with
  | nil =>
    rw [step_of_nil hp, step_of_nil (hpend.trans hp)]
    exact .of_next h
  | cons m rest =>
    rw [step_of_cons hp, step_of_cons (hpend.trans hp)]
    exact hR.nextRelated_runMove (hR.setPending h rest) m

theorem nextRelated_runSteps {s t : State} (h : R s t) (k : Nat) : NextRelated R (runSteps k s) (runSteps k t) := by
  induction k generalizing s t with
  | zero => exact .of_next h
  | succ k ih =>
    obtain ⟨s', t', hs, ht, h'⟩ := hR.nextRelated_step h
    simp only [runSteps, hs, ht]
    exact ih h'

end

end KeptByOps

/-! ### The hidden bits -/

theorem SameToHost.bit {s t : State} (h : SameToHost s t) (i : Nat) : t.bit i = s.bit i := by
  simp only [State.bit, h.count]
  split
  · next hi => exact h.stored i hi
  · rfl

/-- An append writes the same bits in both, and even a `COUNT` that wrapped would reveal no bit beyond them. -/
theorem SameToHost.appendBits {s t : State} (h : SameToHost s t) (v : BitVec 16) (n : Nat) :
    SameToHost ((s.memWrite s.count.toNat v n).setCount (s.count.toNat + n)) ((t.memWrite t.count.toNat v n).setCount (t.count.toNat + n)) where
  config := by simpa using h.config
  count := by simp [h.count]
  status := by simpa using h.status
  pending := by simpa using h.pending
  events := by simpa using h.events
  stored := by
    intro i hi
    have hlt : i < s.count.toNat + n := lt_of_lt_of_le hi (by simpa using Nat.mod_le _ _)
    rw [State.storedBit_congr (State.setCount_mem _ _), State.storedBit_congr (State.setCount_mem _ _), State.storedBit_memWrite,
      State.storedBit_memWrite, h.count]
    split
    · rfl
    · exact h.stored i (by omega)

theorem sameToHost_keptByOps : KeptByOps SameToHost where
  config := SameToHost.config
  count := SameToHost.count
  status := SameToHost.status
  pending := SameToHost.pending
  bit := SameToHost.bit
  respond := fun h r => ⟨h.config, h.count, h.status, h.pending, by simp [h.events], h.stored⟩
  emit := fun h b => ⟨h.config, h.count, h.status, h.pending, by simp [h.events], h.stored⟩
  setStatus := fun h _ => ⟨h.config, h.count, rfl, h.pending, h.events, h.stored⟩
  setPending := fun h _ => ⟨h.config, h.count, h.status, rfl, h.events, h.stored⟩
  appendBits := SameToHost.appendBits
  clear := fun h => ⟨h.config, rfl, h.status, h.pending, h.events, fun i _ => State.storedBit_congr rfl i⟩

/-- Settles O47. -/
theorem hiddenBitsCannotBeObserved : Obligations.HiddenBitsCannotBeObserved :=
  fun _ _ k h => sameToHost_keptByOps.nextRelated_runSteps h k

/-! ### The past events -/

/-- Two states that differ at most in what was produced before: `p` in the one, `q` in the other, and the same events since. -/
def SameSince (p q : List Event) (s t : State) : Prop :=
  ∃ new, s.events = p ++ new ∧ t = { s with events := q ++ new }

theorem State.memWrite_withEvents (s : State) (es : List Event) (i : Nat) (v : BitVec 16) (n : Nat) :
    State.memWrite { s with events := es } i v n = { s.memWrite i v n with events := es } := by
  induction n with
  | zero => rfl
  | succ n ih => rw [State.memWrite, State.memWrite, ih]; rfl

/-- An event produced by both is one more event since. -/
theorem SameSince.produce {p q : List Event} {s t : State} (h : SameSince p q s t) (e : Event) :
    SameSince p q { s with events := s.events ++ [e] } { t with events := t.events ++ [e] } := by
  obtain ⟨new, hs, rfl⟩ := h
  exact ⟨new ++ [e], by simp [hs], by simp⟩

theorem sameSince_keptByOps (p q : List Event) : KeptByOps (SameSince p q) where
  config := by rintro s _ ⟨new, hs, rfl⟩; rfl
  count := by rintro s _ ⟨new, hs, rfl⟩; rfl
  status := by rintro s _ ⟨new, hs, rfl⟩; rfl
  pending := by rintro s _ ⟨new, hs, rfl⟩; rfl
  bit := by rintro s _ ⟨new, hs, rfl⟩ i; rfl
  respond := fun h r => h.produce (.resp r)
  emit := fun h b => h.produce (.byte b)
  setStatus := by rintro s _ ⟨new, hs, rfl⟩ st; exact ⟨new, hs, rfl⟩
  setPending := by rintro s _ ⟨new, hs, rfl⟩ ms; exact ⟨new, hs, rfl⟩
  appendBits := by
    rintro s _ ⟨new, hs, rfl⟩ v n
    exact ⟨new, by simpa using hs, by rw [State.memWrite_withEvents]; rfl⟩
  clear := by rintro s _ ⟨new, hs, rfl⟩; exact ⟨new, hs, rfl⟩

/-- Settles O48. -/
theorem pastEventsHaveNoEffect : Obligations.PastEventsHaveNoEffect := by
  intro s past k
  obtain ⟨u, _, hs, ht, new, hu, rfl⟩ :=
    (sameSince_keptByOps s.events past).nextRelated_runSteps (s := s) (t := { s with events := past }) ⟨[], by simp, by simp⟩ k
  exact ⟨u, new, by rw [hs, ← hu], ht⟩

end Sys2Proof.Machine
end

section
/-! SUPPORT. The place of an offset, the sum a read is, what a `MemWrite` depends on, a step on a command word, and appends one after another (20_memory.md R40 to R46). -/

namespace Sys2Proof.Machine

/-! ### The place of an offset (20_memory.md R40) -/

theorem offset_shiftRight (i : Nat) : i >>> 4 = i / 16 := Nat.shiftRight_eq_div_pow i 4

theorem offset_and (i : Nat) : i &&& 15 = i % 16 := Nat.and_two_pow_sub_one_eq_mod i 4

/-- The stored bit of an offset, at its place as the rule writes it. -/
theorem State.storedBit_eq_atom (s : State) (i : Nat) : s.storedBit i = (s.atom (i >>> 4)).getLsbD (15 - (i &&& 15)) := by
  rw [offset_shiftRight, offset_and]
  rfl

/-- Every bit of an atom is the stored bit of an offset. -/
theorem State.atom_getLsbD (s : State) (j : Nat) {b : Nat} (hb : b < 16) : (s.atom j).getLsbD b = s.storedBit (16 * j + (15 - b)) := by
  have hatom : (16 * j + (15 - b)) / 16 = j := by omega
  have hbit : 15 - (16 * j + (15 - b)) % 16 = b := by omega
  rw [State.storedBit, hatom, hbit]

/-! ### A read as a sum (20_memory.md R42) -/

/-- The number whose `n` bits are `b 0 .. b (n-1)`, the first one most significant. -/
def bitSum (b : Nat → Bool) (n : Nat) : Nat := ((List.range n).map fun k => (b k).toNat <<< (n - 1 - k)).sum

/-- One more bit doubles what the earlier ones weigh. -/
theorem bitSum_succ (b : Nat → Bool) (n : Nat) : bitSum b (n + 1) = bitSum b n * 2 + (b n).toNat := by
  have hdouble : ∀ k ∈ List.range n, (b k).toNat <<< (n + 1 - 1 - k) = (b k).toNat <<< (n - 1 - k) * 2 := by
    intro k hk
    have hlen : n + 1 - 1 - k = n - 1 - k + 1 := by have := List.mem_range.1 hk; omega
    rw [hlen, Nat.shiftLeft_succ, Nat.mul_comm]
  unfold bitSum
  rw [List.range_succ, List.map_append, List.sum_append, List.map_congr_left hdouble, List.sum_map_mul_right]
  simp

theorem State.memRead_toNat_lt (s : State) (i : Nat) {n : Nat} (hn : n ≤ 16) : (s.memRead i n).toNat < 2 ^ n := by
  induction n with
  | zero => simp [State.memRead]
  | succ n ih => exact BitVec.toNat_shiftConcat_lt_of_lt hn (ih (by omega))

/-- `MemRead(i, n)` is the sum of its bits: no bit is shifted out of the 16. -/
theorem State.memRead_toNat (s : State) (i : Nat) {n : Nat} (hn : n ≤ 16) :
    (s.memRead i n).toNat = bitSum (fun k => s.bitNoWrap (i + k)) n := by
  induction n with
  | zero => rfl
  | succ n ih =>
    have hlt := s.memRead_toNat_lt i (n := n) (by omega)
    rw [State.memRead, BitVec.toNat_shiftConcat_eq_of_lt hn hlt, ih (by omega), bitSum_succ]

/-! ### What a `MemWrite` depends on (20_memory.md R43) -/

/-- Only the `n` most significant bits of the value are written. -/
theorem State.memWrite_congr_value (s : State) (i : Nat) {n : Nat} {u v : BitVec 16}
    (h : ∀ k, k < n → u.getLsbD (15 - k) = v.getLsbD (15 - k)) : s.memWrite i u n = s.memWrite i v n := by
  induction n with
  | zero => rfl
  | succ n ih => rw [State.memWrite, State.memWrite, ih fun k hk => h k (by omega), h n (by omega)]

/-- Values with the same `n` most significant bits, bit by bit. -/
theorem getLsbD_top_eq_of_shiftRight_eq {n : Nat} (hn : n ≤ 16) {u v : BitVec 16} (h : u >>> (16 - n) = v >>> (16 - n)) {k : Nat}
    (hk : k < n) : u.getLsbD (15 - k) = v.getLsbD (15 - k) := by
  have hplace : 16 - n + (n - 1 - k) = 15 - k := by omega
  have hbit := congrArg (fun x => x.getLsbD (n - 1 - k)) h
  simpa only [BitVec.getLsbD_ushiftRight, hplace] using hbit

/-! ### A step on a command word -/

/-- What a step does with a command word that is waiting: it takes the word's fault, or does what the word's command does. -/
theorem step_command_cases {s t : State} {w : CommandWord} {rest : List HostMove} (hp : s.pending = .command w :: rest)
    (hstep : step s = .next t) :
    (∃ e, decode w = .error e ∧ t = State.raiseFault { s with pending := rest } (causeOf e))
      ∨ ∃ i, decode w = .ok i ∧ CommandEffect i { s with pending := rest } t := by
  have hrun : runWord w { s with pending := rest } = .next t := (step_of_cons hp).symm.trans hstep
  cases hd : decode w with
  | error e =>
    rw [runWord_of_error hd] at hrun
    injection hrun with ht
    exact .inl ⟨e, rfl, ht.symm⟩
  | ok i =>
    obtain ⟨u, hu, he⟩ := exec_cases i { s with pending := rest }
    rw [runWord_of_ok hd, hu] at hrun
    injection hrun with ht
    exact .inr ⟨i, rfl, ht ▸ he⟩

/-! ### Appends one after another -/

theorem exec_appendBit_of_running {s : State} (hs : s.status = .running) {b : Nat} (hb : b ≤ 1) :
    exec (.appendBit b) s = .next (s.append 1 (bitValue b)) :=
  congrArg Host.Outcome.next ((State.whileRunning_running hs _).trans (if_pos hb))

theorem exec_appendBits_of_running {s : State} (hs : s.status = .running) (v : Nat) {n : Nat} (hn : 1 ≤ n ∧ n ≤ 16) :
    exec (.appendBits v n) s = .next (s.append n (bitsValue v)) :=
  congrArg Host.Outcome.next ((State.whileRunning_running hs _).trans (if_pos hn))

theorem State.append_status_of_fits {s : State} {n : Nat} (h : s.count.toNat + n ≤ s.config.capBits) (v : BitVec 16) :
    (s.append n v).status = s.status := by
  rw [State.append_of_fits h]
  simp

theorem execAll_concat {is : List Instr} {i : Instr} {s t : State} (h : execAll is s = .next t) :
    execAll (is ++ [i]) s = exec i t := by
  induction is generalizing s with
  | nil =>
    obtain rfl : s = t := by injection h
    obtain ⟨u, hu, -⟩ := exec_cases i s
    simp only [List.nil_append, execAll, hu]
  | cons j is ih =>
    obtain ⟨u, hu, -⟩ := exec_cases j s
    simp only [execAll, hu] at h
    simp only [List.cons_append, execAll, hu]
    exact ih h

/-- Two states that differ at most in what was produced before. -/
def SameButEvents (s t : State) : Prop := ∃ es, t = { s with events := es }

theorem SameButEvents.trans {s t u : State} (hst : SameButEvents s t) (htu : SameButEvents t u) : SameButEvents s u := by
  obtain ⟨_, rfl⟩ := hst
  obtain ⟨es, rfl⟩ := htu
  exact ⟨es, rfl⟩

theorem SameButEvents.status {s t : State} (h : SameButEvents s t) : t.status = s.status := by
  obtain ⟨-, rfl⟩ := h
  rfl

/-- An append does the same whatever was produced before. -/
theorem SameButEvents.append {s t : State} (h : SameButEvents s t) (n : Nat) (v : BitVec 16) : SameButEvents (s.append n v) (t.append n v) := by
  obtain ⟨es, rfl⟩ := h
  obtain ⟨new, -, h⟩ := (sameSince_keptByOps s.events es).append (s := s) (t := { s with events := es }) ⟨[], by simp, by simp⟩ n v
  exact ⟨_, h⟩

theorem State.append_zero {s : State} (h : s.count.toNat ≤ s.config.capBits) (v : BitVec 16) :
    s.append 0 v = s.respond .ok := by
  rw [State.append_of_fits h]
  simp [State.memWrite, State.setCount]

/-- An append of `n` bits and then of the next bit is, but for the second response, an append of `n + 1` bits. -/
theorem State.sameButEvents_append_append_one {s : State} {n : Nat} (hl : s.config.Legal) (h : s.count.toNat + (n + 1) ≤ s.config.capBits)
    {v w : BitVec 16} (hw : w.getLsbD 15 = v.getLsbD (15 - n)) :
    SameButEvents (s.append (n + 1) v) ((s.append n v).append 1 w) := by
  have hfit : s.count.toNat + n ≤ s.config.capBits := by omega
  have hcount := State.append_count hl hfit v
  have hfit' : (s.append n v).count.toNat + 1 ≤ (s.append n v).config.capBits := by
    rw [hcount, State.append_config]
    omega
  rw [State.append_of_fits hfit', hcount, State.append_of_fits hfit, State.append_of_fits h]
  exact ⟨_, by simp only [State.memWrite, Nat.add_zero, Nat.sub_zero, hw]; rfl⟩

end Sys2Proof.Machine
end

section
/-! PROOF. The primitives of the storage: `Bit`, `MemRead` and `MemWrite` (20_memory.md R40 to R43 and R48). -/

namespace Sys2Proof.Machine

/-- Settles O9. -/
theorem bitReadsStoredOrSentinel : Obligations.BitReadsStoredOrSentinel := by
  intro s i
  rw [← State.storedBit_eq_atom]
  rfl

/-- Settles O10: each bit appended to a read doubles the ones before it. -/
theorem memReadIsSumOfBits : Obligations.MemReadIsSumOfBits := fun s i _ hn => s.memRead_toNat i hn

/-- Settles O11: every bit of every atom is the stored bit of one offset, so `State.storedBit_memWrite` says what becomes of it. -/
theorem memWriteStoresTopBits : Obligations.MemWriteStoresTopBits := by
  intro s i n v _ hn
  refine ⟨fun k hk => ?written, fun j b hb hother => ?others, fun u hu => ?lowBits, by simp, by simp, by simp, by simp, by simp⟩
  case written =>
    rw [← State.storedBit_eq_atom, State.storedBit_memWrite, if_pos (by omega), Nat.add_sub_cancel_left]
  case others =>
    have hout : ¬ (i ≤ 16 * j + (15 - b) ∧ 16 * j + (15 - b) < i + n) := by
      rintro ⟨hlo, hhi⟩
      have hplace := hother (16 * j + (15 - b) - i) (by omega)
      rw [offset_shiftRight, offset_and] at hplace
      omega
    rw [State.atom_getLsbD _ _ hb, State.atom_getLsbD _ _ hb, State.storedBit_memWrite, if_neg hout]
  case lowBits => exact s.memWrite_congr_value i fun k hk => getLsbD_top_eq_of_shiftRight_eq hn hu hk

end Sys2Proof.Machine
end

section
/-! PROOF. One append of many bits and many appends of one bit leave the same stream (20_memory.md R46). -/

namespace Sys2Proof.Machine

/-- The `APPEND_BIT` commands of the `n` most significant bits of a 16-bit `v`, `v[15]` first. -/
def singleAppends (v n : Nat) : List Instr := (List.range n).map fun k => .appendBit ((v >>> (15 - k)) % 2)

theorem singleAppends_succ (v n : Nat) : singleAppends v (n + 1) = singleAppends v n ++ [.appendBit ((v >>> (15 - n)) % 2)] := by
  simp [singleAppends, List.range_succ]

/-- The bit `APPEND_BIT` stores is the bit of `v` that `APPEND_BITS` stores at that place. -/
theorem bitValue_shiftRight_top (v n : Nat) : (bitValue ((v >>> (15 - n)) % 2)).getLsbD 15 = (bitsValue v).getLsbD (15 - n) := by
  have hplace : 15 - n < 16 := by omega
  rw [bitValue_top (by omega), bitsValue_getLsbD, decide_eq_true hplace, Bool.true_and, Nat.testBit_eq_decide_div_mod_eq,
    Nat.shiftRight_eq_div_pow]

/-- `n` single appends leave what one append of the `n` bits leaves, but for the responses. -/
theorem execAll_singleAppends {s : State} (hl : s.config.Legal) (hs : s.status = .running) (v : Nat) {n : Nat}
    (hfit : s.count.toNat + n ≤ s.config.capBits) :
    ∃ u, execAll (singleAppends v n) s = .next u ∧ SameButEvents (s.append n (bitsValue v)) u := by
  induction n with
  | zero => exact ⟨s, rfl, s.events, by rw [State.append_zero hfit]; rfl⟩
  | succ n ih =>
    have hfit' : s.count.toNat + n ≤ s.config.capBits := by omega
    obtain ⟨u, hbefore, hu⟩ := ih hfit'
    have hrun : u.status = .running := (hu.status.trans (State.append_status_of_fits hfit' _)).trans hs
    refine ⟨u.append 1 (bitValue ((v >>> (15 - n)) % 2)), ?_, ?_⟩
    · rw [singleAppends_succ, execAll_concat hbefore, exec_appendBit_of_running hrun (by omega)]
    · exact (State.sameButEvents_append_append_one hl hfit (bitValue_shiftRight_top v n)).trans (hu.append 1 _)

/-- Settles O16: storage is the same data, so the canonical form is not needed, only that `COUNT` does not wrap. -/
theorem appendBitsIsSingleAppends : Obligations.AppendBitsIsSingleAppends := by
  intro s v n hinv hs _ hlo hhi hfit
  obtain ⟨_, hsingle, _, rfl⟩ := execAll_singleAppends hinv.legal hs v hfit
  exact ⟨_, _, exec_appendBits_of_running hs v ⟨hlo, hhi⟩, hsingle, rfl, rfl, rfl, rfl⟩

end Sys2Proof.Machine
end

section
/-! PROOF. No command but `CLEAR` rewrites a bit already written (20_memory.md R47). -/

namespace Sys2Proof.Machine

/-- Every bit below `COUNT` in `s` is the same in `t`. -/
def KeepsWritten (s t : State) : Prop := ∀ i, i < s.count.toNat → t.bit i = s.bit i

theorem KeepsWritten.of_eq {s t : State} (hmem : t.mem = s.mem) (hcount : t.count = s.count) : KeepsWritten s t :=
  fun i _ => State.bit_congr hmem hcount i

/-- An append writes at and beyond `COUNT` alone. -/
theorem keepsWritten_append {s : State} (hl : s.config.Legal) (n : Nat) (v : BitVec 16) : KeepsWritten s (s.append n v) := by
  by_cases hfit : s.count.toNat + n ≤ s.config.capBits
  · intro i hi
    rw [State.append_bit hl hfit, if_pos hi]
  · rw [State.append_of_full (by omega)]
    exact .of_eq (by simp) (by simp)

theorem CommandEffect.keepsWritten {i : Instr} {s t : State} (ht : CommandEffect i s t) (hl : s.config.Legal) (hi : i ≠ .clear) :
    KeepsWritten s t := by
  cases ht with
  | absorbed => exact .of_eq rfl rfl
  | outOfRange => exact .of_eq (by simp) (by simp)
  | appends n v => exact keepsWritten_append hl n v
  | reads => exact .of_eq (by simp) (by simp)
  | clears _ hc => exact absurd hc hi

/-- Settles O44: a fault writes no storage, and a word other than `CLEAR`'s decodes to another command. -/
theorem writtenBitsStay : Obligations.WrittenBitsStay := by
  intro s t w rest hinv hp hw hstep
  rcases step_command_cases hp hstep with ⟨e, -, rfl⟩ | ⟨i, hd, ht⟩
  · exact KeepsWritten.of_eq (by simp) (by simp)
  · have hi : i ≠ .clear := by
      rintro rfl
      exact hw (encode_of_decode hd).symm
    exact ht.keepsWritten hinv.legal hi

end Sys2Proof.Machine
end

section
/-! SUPPORT. The fields of a word as numbers and a word as the sum of its fields, `decode` case by case, and the word of a command as a number (30_encoding.md R60, R72 and R73). -/

namespace Sys2Proof

/-! ### A word and its fields (30_encoding.md R60) -/

/-- The word of five fields, by the formula of R60. -/
theorem wordOf_toNat (f : Fields) :
    (wordOf f).toNat = f.op.toNat <<< 60 ||| f.rsv.toNat <<< 53 ||| f.cnt.toNat <<< 48 ||| f.data.toNat <<< 32 ||| f.off.toNat := by
  simp only [wordOf, BitVec.toNat_append, Nat.shiftLeft_or_distrib, ← Nat.shiftLeft_add]

/-- Two words side by side as a sum: the lower one fills no bit of the upper one. -/
theorem toNat_append_eq_add {m n : Nat} (x : BitVec m) (y : BitVec n) : (x ++ y).toNat = x.toNat * 2 ^ n + y.toNat := by
  rw [BitVec.toNat_append, ← Nat.shiftLeft_add_eq_or_of_lt y.isLt, Nat.shiftLeft_eq]

/-- The word of five fields, as a sum. -/
theorem wordOf_toNat_eq_add (f : Fields) :
    (wordOf f).toNat = f.op.toNat * 2 ^ 60 + f.rsv.toNat * 2 ^ 53 + f.cnt.toNat * 2 ^ 48 + f.data.toNat * 2 ^ 32 + f.off.toNat := by
  simp only [wordOf, toNat_append_eq_add]
  ring

section
open Machine

@[simp] theorem fieldsOf_op_toNat (w : CommandWord) : (fieldsOf w).op.toNat = opNat w := by
  have hop : w.toNat / 2 ^ 60 < 2 ^ 4 := by have := w.isLt; omega
  rw [fieldsOf, BitVec.extractLsb'_toNat, Nat.shiftRight_eq_div_pow, Nat.mod_eq_of_lt hop, opNat]

@[simp] theorem fieldsOf_rsv_toNat (w : CommandWord) : (fieldsOf w).rsv.toNat = rsvNat w := by
  rw [fieldsOf, BitVec.extractLsb'_toNat, Nat.shiftRight_eq_div_pow, rsvNat]

@[simp] theorem fieldsOf_cnt_toNat (w : CommandWord) : (fieldsOf w).cnt.toNat = cntNat w := by
  rw [fieldsOf, BitVec.extractLsb'_toNat, Nat.shiftRight_eq_div_pow, cntNat]

@[simp] theorem fieldsOf_data_toNat (w : CommandWord) : (fieldsOf w).data.toNat = dataNat w := by
  rw [fieldsOf, BitVec.extractLsb'_toNat, Nat.shiftRight_eq_div_pow, dataNat]

@[simp] theorem fieldsOf_off_toNat (w : CommandWord) : (fieldsOf w).off.toNat = offNat w := by
  rw [fieldsOf, BitVec.extractLsb'_toNat, Nat.shiftRight_zero, offNat]

/-! ### `decode` case by case (30_encoding.md R72) -/

/-- The reserved values of `OP` name no opcode (30_encoding.md R68). -/
theorem opcodeOf_eq_none_iff (b : BitVec 4) : opcodeOf b = none ↔ b.toNat = 0 ∨ 10 ≤ b.toNat := by
  revert b; decide

/-! The columns of 30_encoding.md R67, by the value of `OP`. -/

theorem readsCnt_eq_false_iff (o : Opcode) : readsCnt o = false ↔ (opField o).toNat ≠ 2 ∧ (opField o).toNat ≠ 4 := by
  cases o <;> decide

theorem readsData_eq_false_iff (o : Opcode) :
    readsData o = false ↔ (opField o).toNat ≠ 1 ∧ (opField o).toNat ≠ 2 ∧ (opField o).toNat ≠ 7 := by
  cases o <;> decide

theorem readsOff_eq_false_iff (o : Opcode) : readsOff o = false ↔ (opField o).toNat ≠ 3 ∧ (opField o).toNat ≠ 4 := by
  cases o <;> decide

theorem unusedFieldSet_iff (o : Opcode) (f : Fields) :
    unusedFieldSet o f = true ↔
      (f.cnt.toNat ≠ 0 ∧ readsCnt o = false) ∨ (f.data.toNat ≠ 0 ∧ readsData o = false) ∨ (f.off.toNat ≠ 0 ∧ readsOff o = false) := by
  simp [unusedFieldSet, BitVec.toNat_eq, and_comm, or_assoc]

/-- `RSV`, or a field the command does not read, is nonzero: the same said of the fields and of the word's number. -/
theorem fieldReserved_iff {w : CommandWord} {o : Opcode} (ho : opcodeOf (fieldsOf w).op = some o) :
    FieldReserved w ↔ (fieldsOf w).rsv ≠ 0 ∨ unusedFieldSet o (fieldsOf w) = true := by
  have hop : (opField o).toNat = opNat w := by rw [← opField_of_opcodeOf ho, fieldsOf_op_toNat]
  rw [unusedFieldSet_iff, readsCnt_eq_false_iff, readsData_eq_false_iff, readsOff_eq_false_iff, hop, ne_eq, BitVec.toNat_eq]
  simp only [fieldsOf_rsv_toNat, fieldsOf_cnt_toNat, fieldsOf_data_toNat, fieldsOf_off_toNat]
  rfl

theorem decode_of_opReserved {w : CommandWord} (h : OpReserved w) : decode w = .error .illegalOpcode := by
  have ho : opcodeOf (fieldsOf w).op = none := by rwa [opcodeOf_eq_none_iff, fieldsOf_op_toNat]
  simp only [decode, ho]

theorem opcodeOf_of_not_opReserved {w : CommandWord} (h : ¬ OpReserved w) : ∃ o, opcodeOf (fieldsOf w).op = some o := by
  rwa [← Option.ne_none_iff_exists', ne_eq, opcodeOf_eq_none_iff, fieldsOf_op_toNat]

theorem decode_of_fieldReserved {w : CommandWord} (hop : ¬ OpReserved w) (h : FieldReserved w) : decode w = .error .reservedField := by
  obtain ⟨o, ho⟩ := opcodeOf_of_not_opReserved hop
  rcases (fieldReserved_iff ho).1 h with hr | hu
  · simp only [decode, ho, if_pos hr]
  · simp only [decode, ho, if_pos hu, ite_self]

theorem decode_of_not_reserved {w : CommandWord} (hop : ¬ OpReserved w) (h : ¬ FieldReserved w) : ∃ i, decode w = .ok i := by
  obtain ⟨o, ho⟩ := opcodeOf_of_not_opReserved hop
  obtain ⟨hr, hu⟩ := not_or.1 ((fieldReserved_iff ho).not.1 h)
  exact ⟨instrOf o (fieldsOf w), by simp only [decode, ho, if_neg hr, if_neg hu]⟩

end

/-! ### The word of a command (30_encoding.md R73) -/

/-- A command is well formed exactly when what each field of its word is to hold fits that field. -/
theorem wellFormed_iff (i : Instr) : i.WellFormed ↔ FitsCnt (cntFor i) ∧ FitsData (dataFor i) ∧ FitsOff (offFor i) := by
  cases i <;> simp [Instr.WellFormed, Instr.wellFormed, cntFor, dataFor, offFor, and_comm]

/-- A value read from a field fits that field. -/
theorem wellFormed_instrOf (o : Opcode) (f : Fields) : (instrOf o f).WellFormed := by
  have hcnt : FitsCnt f.cnt.toNat := Nat.le_of_lt_succ f.cnt.isLt
  have hdata : FitsData f.data.toNat := Nat.le_of_lt_succ f.data.isLt
  have hoff : FitsOff f.off.toNat := Nat.le_of_lt_succ f.off.isLt
  cases o <;> simp [Instr.WellFormed, instrOf, Instr.wellFormed, hcnt, hdata, hoff]

theorem wellFormed_of_decode {w : CommandWord} {i : Instr} (h : decode w = .ok i) : i.WellFormed := by
  obtain ⟨o, -, -, -, rfl⟩ := decode_ok h
  exact wellFormed_instrOf o _

/-- The word of a well-formed command as a number. -/
theorem encode_eq_ofNat {i : Instr} (h : i.WellFormed) :
    encode i = BitVec.ofNat 64 ((opField (opcodeFor i)).toNat * 2 ^ 60 + cntFor i * 2 ^ 48 + dataFor i * 2 ^ 32 + offFor i) := by
  obtain ⟨hcnt, hdata, hoff⟩ := (wellFormed_iff i).1 h
  have hcnt' : (fieldsFor i).cnt.toNat = cntFor i := Nat.mod_eq_of_lt (by omega)
  have hdata' : (fieldsFor i).data.toNat = dataFor i := Nat.mod_eq_of_lt (by omega)
  have hoff' : (fieldsFor i).off.toNat = offFor i := Nat.mod_eq_of_lt (by omega)
  calc encode i = BitVec.ofNat 64 (wordOf (fieldsFor i)).toNat := by rw [BitVec.ofNat_toNat, BitVec.setWidth_eq, encode]
    _ = _ := by rw [wordOf_toNat_eq_add, hcnt', hdata', hoff']; simp [fieldsFor]

end Sys2Proof

namespace Sys2Proof.Machine

theorem assembleInstr_of_wellFormed {i : Instr} (h : i.WellFormed) : assembleInstr i = some (encode i) := if_pos h

/-- The assembler makes a word that decodes of the command it decodes to. -/
theorem assembleInstr_of_decode {w : CommandWord} {i : Instr} (h : decode w = .ok i) : assembleInstr i = some w := by
  rw [assembleInstr_of_wellFormed (wellFormed_of_decode h), encode_of_decode h]

/-- The assembler's answer as a number: the word of the four fields R73 names, where every operand fits. -/
theorem assembleInstr_eq_ofNat (i : Instr) :
    assembleInstr i
      = if i.WellFormed then some (BitVec.ofNat 64
          ((opField (opcodeFor i)).toNat * 2 ^ 60 + cntFor i * 2 ^ 48 + dataFor i * 2 ^ 32 + offFor i)) else none := by
  by_cases h : i.WellFormed
  · rw [if_pos h, assembleInstr_of_wellFormed h, encode_eq_ofNat h]
  · rw [if_neg h]
    exact if_neg h

end Sys2Proof.Machine
end

section
/-! PROOF. Decoding, encoding and the assembler (30_encoding.md). -/

namespace Sys2Proof.Machine

/-- Settles O4: the operands of a decoded command are the values of fields, so they fit; that the word is the command's is `encode_of_decode`. -/
theorem encodeInvertsDecode : Obligations.EncodeInvertsDecode := fun _ _ h =>
  ⟨wellFormed_of_decode h, encode_of_decode h⟩

/-- Settles O1: the formula is that of `wordOf`, whose fields give the word back. -/
theorem wordIsItsFields : Obligations.WordIsItsFields := fun w =>
  ⟨fieldsOf_op_toNat w, fieldsOf_rsv_toNat w, fieldsOf_cnt_toNat w, fieldsOf_data_toNat w, fieldsOf_off_toNat w,
    (congrArg BitVec.toNat (wordOf_fieldsOf w)).symm.trans (wordOf_toNat _)⟩

/-- Settles O6: the three cases exclude each other, and `decode` answers each differently. -/
theorem decodeRefusesExactly : Obligations.DecodeRefusesExactly := by
  intro w
  by_cases hop : OpReserved w
  · simp [hop, decode_of_opReserved hop]
  · by_cases hf : FieldReserved w
    · simp [hop, hf, decode_of_fieldReserved hop hf]
    · obtain ⟨i, hi⟩ := decode_of_not_reserved hop hf
      simp [hop, hf, hi]

/-- Settles O7: each form is `assembleInstr_eq_ofNat` with that form's fields and bounds. -/
theorem assemblerWords : Obligations.AssemblerWords := by
  refine ⟨fun b => ?_, fun v n => ?_, fun i => ?_, fun i n => ?_, ?_, ?_, fun b => ?_, ?_, ?_⟩
  all_goals
    rw [assembleInstr_eq_ofNat]
    simp [Instr.WellFormed, Instr.wellFormed, opcodeFor, opField, cntFor, dataFor, offFor]

/-- Settles O2: each word is decoded, and the assembler makes the word of what it decodes to. -/
theorem exampleWordsDecode : Obligations.ExampleWordsDecode := by
  have both {w : CommandWord} {i : Instr} (h : decode w = .ok i) : decode w = .ok i ∧ assembleInstr i = some w :=
    ⟨h, assembleInstr_of_decode h⟩
  have hpeek : decode 0x4010000000000000 = .ok (.peek 0 16) := by decide
  have hlookahead : assembleLine (.lookahead 0) = some [0x4010000000000000] := by
    simp only [assembleLine, expandLine, assembleInstrs, assembleInstr_of_decode hpeek]
  exact ⟨both (by decide), both (by decide), both (by decide), both (by decide), ⟨hpeek, hlookahead⟩, both (by decide),
    both (by decide), both (by decide), both (by decide), both (by decide)⟩

/-- Settles O8: the expansions are those `expandLine` lists. -/
theorem pseudoInstructionsExpand : Obligations.PseudoInstructionsExpand :=
  ⟨fun _ => rfl, fun _ _ => rfl, fun _ => rfl, fun _ => rfl, fun _ => rfl⟩

end Sys2Proof.Machine
end

section
/-! SUPPORT. The two faults and the whole effect of an append, what is read back of it, and commands executed one after another (40_append.md R80 to R82). -/

namespace Sys2Proof

/-- The fields of a command's word are those the command is written with (30_encoding.md R73). -/
theorem fieldsOf_encode (i : Instr) : fieldsOf (encode i) = fieldsFor i := fieldsOf_wordOf _

end Sys2Proof

namespace Sys2Proof.Machine

/-! ### The faults of an append (60_exceptions.md R123 and R124) -/

theorem State.raiseFault_eq_withFault {s : State} (hs : s.status = .running) (c : FaultCause) : s.raiseFault c = s.withFault c :=
  State.raiseFault_running hs c

theorem State.append_eq_withFault {s : State} (hs : s.status = .running) {n : Nat} (hfull : s.config.capBits < s.count.toNat + n)
    (v : BitVec 16) : s.append n v = s.withFault .capacityOverflow := by
  rw [State.append_of_full hfull, State.raiseFault_eq_withFault hs]

theorem exec_appendBit_of_out_of_range {s : State} (hs : s.status = .running) {b : Nat} (hb : ¬ BitInRange b) :
    exec (.appendBit b) s = .next (s.withFault .operandRange) :=
  congrArg Host.Outcome.next
    ((State.whileRunning_running hs _).trans ((if_neg hb).trans (State.raiseFault_eq_withFault hs _)))

theorem exec_appendBits_of_out_of_range {s : State} (hs : s.status = .running) (v : Nat) {n : Nat} (hn : ¬ AppendCountInRange n) :
    exec (.appendBits v n) s = .next (s.withFault .operandRange) :=
  congrArg Host.Outcome.next
    ((State.whileRunning_running hs _).trans ((if_neg hn).trans (State.raiseFault_eq_withFault hs _)))

/-! ### What an append that fits leaves (40_append.md R82) -/

theorem State.appended_append {s : State} {n : Nat} (hl : s.config.Legal) (hfit : s.count.toNat + n ≤ s.config.capBits) (v : BitVec 16) :
    Appended s (s.append n v) n fun k => v.getLsbD (15 - k) where
  count := State.append_count hl hfit v
  written k hk := by rw [State.append_storedBit hfit, if_pos (by omega), Nat.add_sub_cancel_left]
  others j hj := by rw [State.append_storedBit hfit, if_neg (by omega)]
  bytes a ha := State.append_read hfit v a ha
  config := s.append_config n v
  status := State.append_status_of_fits hfit v
  pending := s.append_pending n v
  events := by rw [State.append_of_fits hfit]; simp

/-- What an append leaves depends on its first `n` bits alone. -/
theorem Appended.congr_bits {s t : State} {n : Nat} {b c : Nat → Bool} (h : Appended s t n b) (hbits : ∀ k, k < n → b k = c k) :
    Appended s t n c :=
  { h with written := fun k hk => (h.written k hk).trans (hbits k hk) }

/-- `APPEND_BITS` stores `v[15]` first (20_memory.md R43). -/
theorem bitsValue_getLsbD_top (v k : Nat) : (bitsValue v).getLsbD (15 - k) = v.testBit (15 - k) := by
  have hplace : 15 - k < 16 := by omega
  rw [bitsValue_getLsbD, decide_eq_true hplace, Bool.true_and]

/-! ### Reading an append back -/

/-- A read depends on the bits at its own offsets alone. -/
theorem State.memRead_congr_range {s t : State} {i n : Nat} (h : ∀ k, k < n → t.bit (i + k) = s.bit (i + k)) :
    t.memRead i n = s.memRead i n := by
  induction n with
  | zero => rfl
  | succ n ih =>
    rw [State.memRead, State.memRead, ih fun k hk => h k (by omega), State.bitNoWrap_eq, State.bitNoWrap_eq, h n (by omega)]

/-- The bits just appended, read at the offset they were appended at. -/
theorem State.memRead_append {s : State} {n : Nat} (hl : s.config.Legal) (hn : n ≤ 16) (hfit : s.count.toNat + n ≤ s.config.capBits)
    (v : BitVec 16) : (s.append n v).memRead s.count.toNat n = v >>> (16 - n) := by
  apply BitVec.eq_of_getLsbD_eq
  intro j _
  rw [State.memRead_getLsbD _ _ _ _ hn, BitVec.getLsbD_ushiftRight]
  by_cases hj : j < n
  · have hplace : 15 - (s.count.toNat + (n - 1 - j) - s.count.toNat) = 16 - n + j := by omega
    rw [State.append_bit hl hfit, if_neg (by omega), if_pos (by omega), hplace, decide_eq_true hj, Bool.true_and]
  · rw [decide_eq_false hj, Bool.false_and, BitVec.getLsbD_of_ge v _ (by omega)]

theorem bitsValue_ushiftRight_toNat {v : Nat} (hv : v ≤ 0xFFFF) (k : Nat) : (bitsValue v >>> k).toNat = v >>> k := by
  rw [BitVec.toNat_ushiftRight, bitsValue, BitVec.toNat_ofNat, Nat.mod_eq_of_lt (by omega)]

/-! ### Commands one after another -/

theorem execAll_cons {i : Instr} {s t : State} (h : exec i s = .next t) (is : List Instr) : execAll (i :: is) s = execAll is t := by
  simp only [execAll, h]

theorem KeepsWritten.trans {s t u : State} (hst : KeepsWritten s t) (hle : s.count.toNat ≤ t.count.toNat) (htu : KeepsWritten t u) :
    KeepsWritten s u :=
  fun i hi => (htu i (by omega)).trans (hst i hi)

/-- A read of written bits alone gives the same later. -/
theorem KeepsWritten.memRead {s t : State} (h : KeepsWritten s t) {i n : Nat} (hi : i + n ≤ s.count.toNat) :
    t.memRead i n = s.memRead i n :=
  State.memRead_congr_range fun k hk => h (i + k) (by omega)

end Sys2Proof.Machine
end

section
/-! PROOF. `APPEND_BIT` and `APPEND_BITS`, each with its encoding, its faults and its append (40_append.md R80 and R81). -/

namespace Sys2Proof.Machine

/-- Settles O12: the three exclusive cases of the operand and of `COUNT`. -/
theorem appendBitRule : Obligations.AppendBitRule := by
  intro s b hl hs
  refine ⟨fieldsOf_encode _, fun hb => ?range, fun hb hfull => ?full, fun hb hfit => ?fits⟩
  case range => exact exec_appendBit_of_out_of_range hs (by omega)
  case full => rw [exec_appendBit_of_running hs hb, State.append_eq_withFault hs hfull]
  case fits =>
    refine ⟨_, exec_appendBit_of_running hs hb, (State.appended_append hl hfit _).congr_bits fun k hk => ?_⟩
    obtain rfl : k = 0 := by omega
    exact bitValue_top hb

/-- Settles O13: the three exclusive cases of the length and of `COUNT`. -/
theorem appendBitsRule : Obligations.AppendBitsRule := by
  intro s v n hl hs
  refine ⟨fieldsOf_encode _, fun hn => ?range, fun hlo hhi hfull => ?full, fun hlo hhi hfit => ?fits⟩
  case range => exact exec_appendBits_of_out_of_range hs v (by omega)
  case full => rw [exec_appendBits_of_running hs v ⟨hlo, hhi⟩, State.append_eq_withFault hs hfull]
  case fits =>
    exact ⟨_, exec_appendBits_of_running hs v ⟨hlo, hhi⟩,
      (State.appended_append hl hfit _).congr_bits fun k _ => bitsValue_getLsbD_top v k⟩

end Sys2Proof.Machine
end

section
/-! PROOF. Appended values read back at the offsets where they were appended (40_append.md R82; 90_conflicts.md C2). -/

namespace Sys2Proof.Machine

/-- Each value of a list of pairs appended from offset `i` on reads back in `t` at the offset where it starts. -/
def ReadsBackFrom (t : State) (i : Nat) (ps : List (Nat × Nat)) : Prop :=
  ∀ (before after : List (Nat × Nat)) (v n : Nat), ps = before ++ (v, n) :: after →
    (t.memRead (i + totalBits before) n).toNat = v >>> (16 - n)

theorem totalBits_cons (v n : Nat) (ps : List (Nat × Nat)) : totalBits ((v, n) :: ps) = n + totalBits ps := rfl

theorem readsBackFrom_nil (t : State) (i : Nat) : ReadsBackFrom t i [] := by
  intro before after v n h
  simp at h

/-- The first pair reads back at `i` and the others from the offset after it. -/
theorem readsBackFrom_cons {t : State} {i v n : Nat} {ps : List (Nat × Nat)} (hfirst : (t.memRead i n).toNat = v >>> (16 - n))
    (hrest : ReadsBackFrom t (i + n) ps) : ReadsBackFrom t i ((v, n) :: ps) := by
  intro before after w m h
  cases before with
  | nil =>
    obtain ⟨⟨rfl, rfl⟩, -⟩ : (v = w ∧ n = m) ∧ ps = after := by simpa using h
    exact hfirst
  | cons p before =>
    obtain ⟨rfl, hps⟩ : (v, n) = p ∧ ps = before ++ (w, m) :: after := by simpa only [List.cons_append, List.cons.injEq] using h
    rw [totalBits_cons, ← Nat.add_assoc]
    exact hrest before after w m hps

/-- Appending pairs that fit completes from any `COUNT`: each value reads back after its own append, and the later appends keep it. -/
theorem execAll_appendPairs {s : State} {ps : List (Nat × Nat)} (hl : s.config.Legal) (hs : s.status = .running)
    (hps : ∀ p ∈ ps, p.1 ≤ 0xFFFF ∧ 1 ≤ p.2 ∧ p.2 ≤ 16) (hfit : s.count.toNat + totalBits ps ≤ s.config.capBits) :
    ∃ t, execAll (appendPairs ps) s = .next t ∧ t.count.toNat = s.count.toNat + totalBits ps ∧ KeepsWritten s t
      ∧ ReadsBackFrom t s.count.toNat ps := by
  induction ps generalizing s with
  | nil => exact ⟨s, rfl, rfl, .of_eq rfl rfl, readsBackFrom_nil s _⟩
  | cons p ps ih =>
    obtain ⟨v, n⟩ := p
    obtain ⟨⟨hv, hlo, hhi⟩, hps⟩ := List.forall_mem_cons.1 hps
    rw [totalBits_cons] at hfit ⊢
    have hfirst : s.count.toNat + n ≤ s.config.capBits := by omega
    have hcount := State.append_count hl hfirst (bitsValue v)
    obtain ⟨t, hrun, htotal, hkept, hread⟩ := ih (s := s.append n (bitsValue v)) (by rwa [State.append_config])
      (by rw [State.append_status_of_fits hfirst, hs]) hps (by rw [hcount, State.append_config]; omega)
    rw [hcount] at htotal hread
    have hvalue : (t.memRead s.count.toNat n).toNat = v >>> (16 - n) := by
      rw [hkept.memRead hcount.ge, State.memRead_append hl hhi hfirst, bitsValue_ushiftRight_toNat hv]
    exact ⟨t, (execAll_cons (exec_appendBits_of_running hs v ⟨hlo, hhi⟩) _).trans hrun, by omega,
      (keepsWritten_append hl n _).trans (by omega) hkept, readsBackFrom_cons hvalue hread⟩

/-- Settles O15: `COUNT` starts at 0, so every recorded offset is the sum of the lengths before it. -/
theorem appendsReadBack : Obligations.AppendsReadBack := by
  intro s ps hl hs hempty hps hfit
  have hzero : s.count.toNat = 0 := by rw [hempty]; rfl
  obtain ⟨t, hrun, hcount, -, hread⟩ := execAll_appendPairs hl hs hps (by omega)
  simp only [hzero, Nat.zero_add, ReadsBackFrom] at hcount hread
  exact ⟨t, hrun, hcount, hread⟩

end Sys2Proof.Machine
end

section
/-! SUPPORT. What a peek answers, and that it leaves everything but the produced events as it was (41_peek.md R90 to R92). -/

namespace Sys2Proof.Machine

/-! ### A peek on a running block -/

theorem exec_peekBit_of_running {s : State} (hs : s.status = .running) (i : Nat) :
    exec (.peekBit i) s = .next (s.respond (.value ((BitVec.ofBool (s.bit i)).setWidth 32))) :=
  congrArg Host.Outcome.next (State.whileRunning_running hs _)

theorem exec_peek_of_running {s : State} (hs : s.status = .running) (i : Nat) {n : Nat} (hn : n ≤ 16) :
    exec (.peek i n) s = .next (s.respond (.value ((s.memRead i n).setWidth 32))) :=
  congrArg Host.Outcome.next ((State.whileRunning_running hs _).trans (if_pos hn))

theorem exec_peek_of_out_of_range {s : State} (hs : s.status = .running) (i : Nat) {n : Nat} (hn : 16 < n) :
    exec (.peek i n) s = .next (s.withFault .operandRange) :=
  congrArg Host.Outcome.next
    ((State.whileRunning_running hs _).trans ((if_neg (Nat.not_le.2 hn)).trans (State.raiseFault_eq_withFault hs _)))

/-! ### The bits of the answer -/

/-- A read zero-extended to `VAL`: no bit of the 16 is lost, so its bits are those of `State.memRead_getLsbD`. -/
theorem State.memRead_setWidth_getLsbD (s : State) (i : Nat) {n : Nat} (hn : n ≤ 16) (j : Nat) :
    ((s.memRead i n).setWidth 32).getLsbD j = (decide (j < n) && s.bit (i + (n - 1 - j))) := by
  rw [BitVec.getLsbD_setWidth, State.memRead_getLsbD _ _ _ _ hn]
  by_cases hj : j < n
  · have hval : j < 32 := by omega
    rw [decide_eq_true hval, Bool.true_and]
  · rw [decide_eq_false hj, Bool.false_and, Bool.and_false]

/-- A read of one bit is that bit. -/
theorem State.memRead_one (s : State) (i : Nat) : s.memRead i 1 = (BitVec.ofBool (s.bit i)).setWidth 16 := by
  rw [State.memRead, State.memRead, State.bitNoWrap_eq, Nat.add_zero]
  cases s.bit i <;> rfl

/-- A narrow read is the top of the 16-bit one: bit `j` of both is the bit at `i + (n - 1 - j)`. -/
theorem State.memRead_eq_ushiftRight (s : State) (i : Nat) {n : Nat} (hn : n ≤ 16) :
    s.memRead i n = s.memRead i 16 >>> (16 - n) := by
  apply BitVec.eq_of_getLsbD_eq
  intro j _
  rw [BitVec.getLsbD_ushiftRight, State.memRead_getLsbD _ _ _ _ hn, State.memRead_getLsbD _ _ _ _ le_rfl]
  have hin : 16 - n + j < 16 ↔ j < n := by omega
  have hoff : 16 - 1 - (16 - n + j) = n - 1 - j := by omega
  rw [decide_eq_decide.2 hin, hoff]

/-! ### Peeks one after another -/

theorem SameButEvents.refl (s : State) : SameButEvents s s := ⟨s.events, rfl⟩

theorem sameButEvents_respond (s : State) (r : Response) : SameButEvents s (s.respond r) := ⟨_, rfl⟩

theorem exec_legalPeek {s : State} (hs : s.status = .running) {p : Instr} (hp : isLegalPeek p = true) :
    ∃ t, exec p s = .next t ∧ SameButEvents s t := by
  cases p with
  | peekBit i => exact ⟨_, exec_peekBit_of_running hs i, sameButEvents_respond s _⟩
  | peek i n => exact ⟨_, exec_peek_of_running hs i (of_decide_eq_true hp), sameButEvents_respond s _⟩
  | _ => exact absurd hp Bool.false_ne_true

theorem execAll_legalPeeks {s : State} (hs : s.status = .running) {ps : List Instr} (hps : ∀ p ∈ ps, isLegalPeek p = true) :
    ∃ t, execAll ps s = .next t ∧ SameButEvents s t := by
  induction ps generalizing s with
  | nil => exact ⟨s, rfl, .refl s⟩
  | cons p ps ih =>
    obtain ⟨hp, hps⟩ := List.forall_mem_cons.1 hps
    obtain ⟨t, hexec, hst⟩ := exec_legalPeek hs hp
    obtain ⟨u, hrun, htu⟩ := ih (hst.status.trans hs) hps
    exact ⟨u, (execAll_cons hexec ps).trans hrun, hst.trans htu⟩

end Sys2Proof.Machine
end

section
/-! PROOF. `PEEK_BIT` and `PEEK`: what each answers, how they agree, and that they change nothing later (41_peek.md R90 to R93). -/

namespace Sys2Proof.Machine

/-- Settles O18: `VAL` is the one bit, zero-extended. -/
theorem peekBitRule : Obligations.PeekBitRule := by
  intro s i hs
  have hval : (BitVec.ofBool (s.bit i)).setWidth 32 = if s.bit i then 1 else 0 := by cases s.bit i <;> rfl
  exact ⟨fieldsOf_encode _, by rw [exec_peekBit_of_running hs, hval]; rfl⟩

/-- Settles O19: the bits of `VAL` are those of the read, zero-extended. -/
theorem peekRule : Obligations.PeekRule := by
  intro s i n hs
  refine ⟨fieldsOf_encode _, fun hn => exec_peek_of_out_of_range hs i hn, fun hn =>
    ⟨_, exec_peek_of_running hs i hn, fun k hk => ?bits, fun j hj => ?above⟩⟩
  case bits =>
    have hplace : n - 1 - k < n := by omega
    have hoff : n - 1 - (n - 1 - k) = k := by omega
    rw [State.memRead_setWidth_getLsbD s i hn, decide_eq_true hplace, Bool.true_and, hoff]
  case above => rw [State.memRead_setWidth_getLsbD s i hn, decide_eq_false (by omega), Bool.false_and]

/-- Settles O20: both peeks answer the same `VAL`, so they do the same while running and while faulted. -/
theorem narrowPeekIsTopOfWide : Obligations.NarrowPeekIsTopOfWide := by
  intro s i
  refine ⟨?_, fun n hn => s.memRead_eq_ushiftRight i hn⟩
  have hval : (s.memRead i 1).setWidth 32 = (BitVec.ofBool (s.bit i)).setWidth 32 := by
    rw [State.memRead_one]
    cases s.bit i <;> rfl
  simp only [exec, execPeek, execPeekBit, if_pos (show PeekCountInRange 1 by decide), hval]

/-- Settles O21: peeks that do not fault add events and nothing else, and no later step depends on the events before it. -/
theorem peeksChangeNothingLater : Obligations.PeeksChangeNothingLater := by
  refine ⟨fun s ps hs hps => ?_, fun _ i _ hs hn => exec_peek_of_out_of_range hs i hn⟩
  obtain ⟨_, hrun, es, rfl⟩ := execAll_legalPeeks hs hps
  exact ⟨_, hrun, pastEventsHaveNoEffect s es⟩

end Sys2Proof.Machine
end

section
/-! SUPPORT. What `SERIALIZE` leaves on a running block, what a stuffed list holds byte by byte, and that destuffing gives the list back (42_serialize.md R100, R104 and R105). -/

namespace Sys2Proof.Machine

/-! ### `SERIALIZE` on a running block -/

theorem exec_serialize_of_running {s : State} (hs : s.status = .running) :
    exec .serialize s = .next { s with events := s.events ++ (stuff s.streamBytes).map .byte ++ [.resp .ok] } := by
  refine congrArg Host.Outcome.next ((State.whileRunning_running hs _).trans ?_)
  rw [State.emitAll_eq, State.respond]

/-- The unstuffed bytes do not depend on what was produced before. -/
@[simp] theorem State.streamBytes_events (s : State) (es : List Event) : State.streamBytes { s with events := es } = s.streamBytes :=
  State.streamBytes_congr rfl rfl

/-- An unstuffed byte is the stream's byte of its index, so its bits are the stream's (20_memory.md R44). -/
theorem State.getLsbD_of_streamBytes_getElem? {s : State} {k : Nat} {u : Byte} (h : s.streamBytes[k]? = some u) {j : Nat} (hj : j < 8) :
    u.getLsbD (7 - j) = s.bit (8 * k + j) := by
  obtain ⟨hk, -⟩ := List.getElem?_eq_some_iff.1 h
  rw [State.streamBytes_length] at hk
  obtain rfl : s.streamByte k = u := Option.some.inj ((s.streamBytes_getElem? k hk).symm.trans h)
  exact s.streamByte_getLsbD k j hj

/-! ### A stuffed list, by its first byte -/

theorem stuff_cons_escaped (bs : List Byte) : stuff (0xFF#8 :: bs) = 0xFF#8 :: 0x00#8 :: stuff bs := by
  rw [stuff_cons, stuffByte_escaped]
  rfl

theorem stuff_cons_plain {b : Byte} (h : b ≠ 0xFF#8) (bs : List Byte) : stuff (b :: bs) = b :: stuff bs := by
  rw [stuff_cons, stuffByte_plain h]
  rfl

/-- Stuffing adds one byte for each `0xFF` (42_serialize.md R104). -/
theorem stuff_length (bs : List Byte) : (stuff bs).length = bs.length + (bs.filter fun b => b = 0xFF#8).length := by
  induction bs with
  | nil => rfl
  | cons b bs ih =>
    by_cases hb : b = 0xFF#8
    · rw [hb, stuff_cons_escaped, List.filter_cons_of_pos (by simp)]
      simp only [List.length_cons, ih]
      omega
    · rw [stuff_cons_plain hb, List.filter_cons_of_neg (by simpa using hb)]
      simp only [List.length_cons, ih]
      omega

/-- No `0xFF` of a stuffed list stands without its `0x00` (42_serialize.md R104): an index is in the first byte's pair or in the rest. -/
theorem stuff_escape_followed (bs : List Byte) {k : Nat} (h : (stuff bs)[k]? = some 0xFF#8) : (stuff bs)[k + 1]? = some 0x00#8 := by
  induction bs generalizing k with
  | nil => cases h
  | cons b bs ih =>
    by_cases hb : b = 0xFF#8
    · rw [hb, stuff_cons_escaped] at h ⊢
      match k, h with
      | 0, _ => rfl
      | 1, h => exact absurd (Option.some.inj h) (by decide)
      | k + 2, h => exact ih h
    · rw [stuff_cons_plain hb] at h ⊢
      match k, h with
      | 0, h => exact absurd (Option.some.inj h) hb
      | k + 1, h => exact ih h

/-! ### Destuffing (42_serialize.md R105) -/

theorem destuff_cons_escaped (bs : List Byte) : destuff (0xFF#8 :: 0x00#8 :: bs) = 0xFF#8 :: destuff bs := if_pos ⟨rfl, rfl⟩

theorem destuff_cons_plain {b : Byte} (h : b ≠ 0xFF#8) (bs : List Byte) : destuff (b :: bs) = b :: destuff bs := by
  cases bs with
  | nil => rfl
  | cons c bs => exact if_neg fun hbc => h hbc.1

theorem destuff_stuff (bs : List Byte) : destuff (stuff bs) = bs := by
  induction bs with
  | nil => rfl
  | cons b bs ih =>
    by_cases hb : b = 0xFF#8
    · rw [hb, stuff_cons_escaped, destuff_cons_escaped, ih]
    · rw [stuff_cons_plain hb, destuff_cons_plain hb, ih]

end Sys2Proof.Machine
end

section
/-! PROOF. `SERIALIZE`: what it emits, that it changes nothing else, and how long and how escaped the emitted bytes are (42_serialize.md R100 to R105). -/

namespace Sys2Proof.Machine

/-- Settles O22: the unstuffed bytes are `State.streamBytes`, emitted as `stuff` escapes them. -/
theorem serializeRule : Obligations.SerializeRule := by
  intro s hs
  exact ⟨fieldsOf_encode _, s.streamBytes, s.streamBytes_length, fun _ _ hu _ hj => State.getLsbD_of_streamBytes_getElem? hu hj,
    exec_serialize_of_running hs⟩

/-- Settles O23: the second `SERIALIZE` finds the same storage and `COUNT`, so the same bytes. -/
theorem serializeRepeats : Obligations.SerializeRepeats := by
  intro s hs
  refine ⟨_, _, stuff s.streamBytes, exec_serialize_of_running hs, exec_serialize_of_running hs, rfl, ?_⟩
  simp only [State.streamBytes_events]

/-- Settles O24: the emitted bytes are a stuffed list of `ceil(COUNT / 8)` bytes. -/
theorem serializedLengthAndEscapes : Obligations.SerializedLengthAndEscapes := by
  intro s hs
  refine ⟨_, exec_serialize_of_running hs, ?_, fun _ => stuff_escape_followed _⟩
  rw [stuff_length, State.streamBytes_length, State.byteCount]

/-- Settles O25. -/
theorem destuffInvertsSerialize : Obligations.DestuffInvertsSerialize := fun _ hs =>
  ⟨_, exec_serialize_of_running hs, destuff_stuff _⟩

end Sys2Proof.Machine
end

section
/-! SUPPORT. What `LOAD_BYTE` and `CLEAR` leave on a running block, and the stream that bytes loaded one after another leave (43_control.md R110, R111 and R114). -/

namespace Sys2Proof.Machine

/-! ### `LOAD_BYTE` (43_control.md R111) -/

theorem exec_loadByte_of_running {s : State} (hs : s.status = .running) {b : Nat} (hb : ByteInRange b) :
    exec (.loadByte b) s = .next (s.append 8 (byteValue b)) :=
  congrArg Host.Outcome.next ((State.whileRunning_running hs _).trans (if_pos hb))

theorem exec_loadByte_of_out_of_range {s : State} (hs : s.status = .running) {b : Nat} (hb : ¬ ByteInRange b) :
    exec (.loadByte b) s = .next (s.withFault .operandRange) :=
  congrArg Host.Outcome.next
    ((State.whileRunning_running hs _).trans ((if_neg hb).trans (State.raiseFault_eq_withFault hs _)))

/-- An append depends on the `n` most significant bits of the value alone, as `MemWrite` does. -/
theorem State.append_congr_value (s : State) {n : Nat} {u v : BitVec 16} (h : ∀ k, k < n → u.getLsbD (15 - k) = v.getLsbD (15 - k)) :
    s.append n u = s.append n v := by
  rw [State.append, State.append, s.memWrite_congr_value _ h]

/-- The 8 bits `LOAD_BYTE b` stores are those `APPEND_BITS (b << 8), 8` stores. -/
theorem byteValue_getLsbD_top (b : Nat) {k : Nat} (hk : k < 8) : (byteValue b).getLsbD (15 - k) = (bitsValue (b <<< 8)).getLsbD (15 - k) := by
  have hge : 15 - k ≥ 8 := by omega
  have hplace : 15 - k - 8 = 7 - k := by omega
  rw [byteValue_getLsbD b k hk, bitsValue_getLsbD_top, Nat.testBit_shiftLeft, decide_eq_true hge, Bool.true_and, hplace]

/-! ### `CLEAR` (43_control.md R110) -/

theorem exec_clear_of_running {s : State} (hs : s.status = .running) :
    exec .clear s = .next { s with mem := [], count := 0, events := s.events ++ [.resp .ok] } :=
  congrArg Host.Outcome.next (State.whileRunning_running hs _)

theorem exec_clear_of_faulted {s : State} {c : FaultCause} (hs : s.status = .faulted c) :
    exec .clear s = .next (s.withResponse (.fault c)) :=
  congrArg Host.Outcome.next (State.whileRunning_faulted hs _)

theorem State.streamBytes_of_count_zero {s : State} (h : s.count = 0) : s.streamBytes = [] := by
  rw [State.streamBytes, State.byteCount, h]
  rfl

/-- The empty stream serializes to its response alone. -/
theorem exec_serialize_of_count_zero {s : State} (hs : s.status = .running) (h : s.count = 0) :
    exec .serialize s = .next { s with events := s.events ++ [.resp .ok] } := by
  rw [exec_serialize_of_running hs, State.streamBytes_of_count_zero h, stuff, List.flatMap_nil, List.map_nil, List.append_nil]

/-! ### Bytes loaded one after another (43_control.md R114) -/

/-- The bits of each byte of a list, most significant first, are the bits of the stream from offset `i` on (20_memory.md R45). -/
def HoldsBytesFrom (t : State) (i : Nat) (bs : List Byte) : Prop :=
  ∀ k b, bs[k]? = some b → ∀ j, j < 8 → t.bit (i + 8 * k + j) = b.getLsbD (7 - j)

theorem holdsBytesFrom_nil (t : State) (i : Nat) : HoldsBytesFrom t i [] := by
  intro k b h
  simp at h

/-- The first byte stands at `i` and the others from the offset after it. -/
theorem holdsBytesFrom_cons {t : State} {i : Nat} {b : Byte} {bs : List Byte} (hfirst : ∀ j, j < 8 → t.bit (i + j) = b.getLsbD (7 - j))
    (hrest : HoldsBytesFrom t (i + 8) bs) : HoldsBytesFrom t i (b :: bs) := by
  intro k c hc j hj
  cases k with
  | zero =>
    obtain rfl : b = c := by simpa using hc
    exact hfirst j hj
  | succ k =>
    have hoff : i + 8 * (k + 1) + j = i + 8 + 8 * k + j := by omega
    rw [hoff]
    exact hrest k c (by simpa using hc) j hj

/-- The bits of a byte just appended, at the offset it was appended at. -/
theorem State.bit_append_byteValue {s : State} (hl : s.config.Legal) (hfit : s.count.toNat + 8 ≤ s.config.capBits) (b : Byte) {j : Nat}
    (hj : j < 8) : (s.append 8 (byteValue b.toNat)).bit (s.count.toNat + j) = b.getLsbD (7 - j) := by
  rw [State.append_bit hl hfit, if_neg (by omega), if_pos (by omega), Nat.add_sub_cancel_left, byteValue_getLsbD _ _ hj,
    BitVec.testBit_toNat]

/-- Loading bytes that fit completes from any `COUNT`: each byte stands where it was loaded, and the later loads keep it. -/
theorem execAll_loadBytes {s : State} {bs : List Byte} (hl : s.config.Legal) (hs : s.status = .running)
    (hfit : s.count.toNat + 8 * bs.length ≤ s.config.capBits) :
    ∃ t, execAll (bs.map fun b => .loadByte b.toNat) s = .next t ∧ t.count.toNat = s.count.toNat + 8 * bs.length ∧ t.status = .running
      ∧ KeepsWritten s t ∧ HoldsBytesFrom t s.count.toNat bs := by
  induction bs generalizing s with
  | nil => exact ⟨s, rfl, rfl, hs, .of_eq rfl rfl, holdsBytesFrom_nil s _⟩
  | cons b bs ih =>
    rw [List.length_cons] at hfit ⊢
    have hfirst : s.count.toNat + 8 ≤ s.config.capBits := by omega
    have hcount := State.append_count hl hfirst (byteValue b.toNat)
    obtain ⟨t, hrun, htotal, hst, hkept, hrest⟩ := ih (s := s.append 8 (byteValue b.toNat)) (by rwa [State.append_config])
      (by rw [State.append_status_of_fits hfirst, hs]) (by rw [hcount, State.append_config]; omega)
    rw [hcount] at htotal hrest
    have hbits : ∀ j, j < 8 → t.bit (s.count.toNat + j) = b.getLsbD (7 - j) := fun j hj =>
      (hkept _ (by omega)).trans (State.bit_append_byteValue hl hfirst b hj)
    have hbyte : ByteInRange b.toNat := by have := b.isLt; omega
    exact ⟨t, (execAll_cons (exec_loadByte_of_running hs hbyte) _).trans hrun, by omega, hst,
      (keepsWritten_append hl 8 _).trans (by omega) hkept, holdsBytesFrom_cons hbits hrest⟩

/-- The from-bytes constructor starts at offset 0, whatever the stream held before. -/
theorem execAll_fromBytes {s : State} {bs : List Byte} (hl : s.config.Legal) (hs : s.status = .running)
    (hfit : 8 * bs.length ≤ s.config.capBits) :
    ∃ t, execAll (fromBytes bs) s = .next t ∧ t.count.toNat = 8 * bs.length ∧ t.status = .running ∧ HoldsBytesFrom t 0 bs := by
  obtain ⟨t, hrun, hcount, hst, -, hbytes⟩ :=
    execAll_loadBytes (s := { s with mem := [], count := 0, events := s.events ++ [.resp .ok] }) (bs := bs) hl hs
      ((Nat.zero_add _).trans_le hfit)
  exact ⟨t, (execAll_cons (exec_clear_of_running hs) _).trans hrun, hcount.trans (Nat.zero_add _), hst, hbytes⟩

/-! ### The serialized bytes of a stream, loaded again -/

/-- The serialized bytes of a stream fit its capacity, which is a whole number of bytes (00_scope.md R6). -/
theorem State.byteCount_le_capBits {s : State} (hl : s.config.Legal) (hle : s.count.toNat ≤ s.config.capBits) :
    8 * s.byteCount ≤ s.config.capBits := by
  obtain ⟨-, -, hmult⟩ := hl
  rw [State.byteCount]
  omega

/-- A stream of exactly the serialized bytes of `s` reads as `s` at every offset: inside the bytes by their bits, which past `COUNT` are the
sentinel's (20_memory.md R41 and R44), and beyond them both streams answer the sentinel. -/
theorem bit_eq_of_holds_streamBytes {s u : State} (hcount : u.count.toNat = 8 * s.byteCount) (hbytes : HoldsBytesFrom u 0 s.streamBytes)
    (i : Nat) : u.bit i = s.bit i := by
  by_cases hi : i / 8 < s.byteCount
  · have hj : i % 8 < 8 := Nat.mod_lt _ (by decide)
    have hloaded := hbytes (i / 8) _ (s.streamBytes_getElem? _ hi) (i % 8) hj
    rwa [s.streamByte_getLsbD _ _ hj, Nat.zero_add, Nat.div_add_mod] at hloaded
  · have hs : s.count.toNat ≤ i := by rw [State.byteCount] at hi; omega
    rw [State.bit_of_ge (s := u) (by omega), State.bit_of_ge hs]

end Sys2Proof.Machine
end

section
/-! PROOF. Construction and bookkeeping: `CLEAR`, `LOAD_BYTE`, `GET_COUNT`, `GET_STATUS`, and the from-bytes constructor (43_control.md). -/

namespace Sys2Proof.Machine

/-- Settles O26: the destuffed bytes are the stream's own, so they fit, and loading them back gives the stream's bits. -/
theorem serializeReloadRoundTrip : Obligations.SerializeReloadRoundTrip := by
  intro s t hinv hs hconfig ht
  have hfit : 8 * s.streamBytes.length ≤ t.config.capBits := by
    rw [State.streamBytes_length, hconfig]
    exact State.byteCount_le_capBits hinv.legal hinv.count_le
  obtain ⟨u, hrun, hcount, -, hbytes⟩ := execAll_fromBytes (hconfig ▸ hinv.legal) ht hfit
  rw [State.streamBytes_length] at hcount
  exact ⟨stuff s.streamBytes, u, exec_serialize_of_running hs, by rw [destuff_stuff, hrun], hcount, bit_eq_of_holds_streamBytes hcount hbytes⟩

/-- Settles O14: the three exclusive cases of the operand and of `COUNT`. -/
theorem loadByteRule : Obligations.LoadByteRule := by
  intro s b hl hs
  refine ⟨fieldsOf_encode _, fun hb => ?range, fun hb hfull => ?full, fun hb hfit => ⟨?fits, ?asBits⟩⟩
  case range => exact exec_loadByte_of_out_of_range hs (by omega)
  case full => rw [exec_loadByte_of_running hs hb, State.append_eq_withFault hs hfull]
  case fits =>
    exact ⟨_, exec_loadByte_of_running hs hb, (State.appended_append hl hfit _).congr_bits fun k hk => byteValue_getLsbD b k hk⟩
  case asBits =>
    rw [exec_loadByte_of_running hs hb, exec_appendBits_of_running hs _ ⟨by decide, by decide⟩,
      s.append_congr_value fun k hk => byteValue_getLsbD_top b hk]

/-- Settles O27. -/
theorem fromBytesLoads : Obligations.FromBytesLoads := by
  intro s bs hl hs hfit
  obtain ⟨t, hrun, hcount, hst, hbytes⟩ := execAll_fromBytes hl hs hfit
  simp only [HoldsBytesFrom, Nat.zero_add] at hbytes
  exact ⟨t, hrun, hcount, hst, hbytes⟩

/-- Settles O28: with nothing listed and `COUNT` 0, every atom and every `Bit` reads as 1s and no byte is emitted. -/
theorem clearRule : Obligations.ClearRule :=
  ⟨fieldsOf_encode _,
    fun _ hs => ⟨_, exec_clear_of_running hs, State.atom_of_mem_nil rfl, rfl, fun _ => State.bit_of_ge (Nat.zero_le _), rfl, rfl, rfl, rfl,
      exec_serialize_of_count_zero hs rfl⟩,
    fun _ _ hs => exec_clear_of_faulted hs⟩

/-- Settles O29. -/
theorem getCountRule : Obligations.GetCountRule :=
  ⟨fieldsOf_encode _, fun _ hs => congrArg Host.Outcome.next (State.whileRunning_running hs _)⟩

/-- Settles O30: `VAL` is the register zero-extended, running or faulted, over its five values. -/
theorem getStatusRule : Obligations.GetStatusRule := by
  refine ⟨by decide, fun s => congrArg (fun val => Host.Outcome.next (s.withResponse (.value val))) ?_⟩
  cases s.status with
  | running => decide
  | faulted c => cases c <;> decide

end Sys2Proof.Machine
end

section
/-! SUPPORT. The fault a command reports on a running block, said of the command, and that a command answers exactly it (60_exceptions.md R123 to R125). -/

namespace Sys2Proof.Machine

/-! ### The fault of a word that decodes (60_exceptions.md R125) -/

/-- An append of `n` bits would pass `CAP_BITS` (60_exceptions.md R124). -/
def State.appendFault (s : State) (n : Nat) : Option FaultCause :=
  if s.config.capBits < s.count.toNat + n then some .capacityOverflow else none

/-- The fault of a command: an operand out of range before an overflow (60_exceptions.md R125); none where it completes. -/
def commandFault (i : Instr) (s : State) : Option FaultCause :=
  match i with
  | .appendBit b => if BitInRange b then s.appendFault 1 else some .operandRange
  | .appendBits _ n => if AppendCountInRange n then s.appendFault n else some .operandRange
  | .peekBit _ => none
  | .peek _ n => if PeekCountInRange n then none else some .operandRange
  | .serialize => none
  | .clear => none
  | .loadByte b => if ByteInRange b then s.appendFault 8 else some .operandRange
  | .getCount => none
  | .getStatus => none

/-- A word that is no command reports what `decode` answers for it, before any fault of an operand. -/
theorem reportedFault_of_error {w : CommandWord} {e : DecodeError} (hd : decode w = .error e) (s : State) :
    reportedFault w s = some (causeOf e) := by
  obtain ⟨hill, hres, -⟩ := decodeRefusesExactly w
  cases e with
  | illegalOpcode => exact if_pos (hill.1 hd)
  | reservedField =>
    obtain ⟨hop, hf⟩ := hres.1 hd
    exact (if_neg hop).trans (if_pos hf)

/-- A range check as 60_exceptions.md R123 writes it, by the operands out of range, and as `exec` makes it, by those in range. -/
theorem ite_of_iff_not {α : Type} {p q : Prop} [Decidable p] [Decidable q] (h : p ↔ ¬ q) (a b : α) :
    (if p then a else b) = if q then b else a :=
  (if_congr h rfl rfl).trans (ite_not q a b)

/-- A word that decodes reports the fault of its command: the rules of R123 and R124 for its `OP`, on the operands it is decoded to. -/
theorem reportedFault_of_ok {w : CommandWord} {i : Instr} (hd : decode w = .ok i) (s : State) :
    reportedFault w s = commandFault i s := by
  obtain ⟨-, -, hok⟩ := decodeRefusesExactly w
  obtain ⟨hop, hf⟩ := hok.1 ⟨i, hd⟩
  obtain ⟨o, ho, -, -, rfl⟩ := decode_ok hd
  have hnum : opNat w = (opField o).toNat := by rw [← opField_of_opcodeOf ho, fieldsOf_op_toNat]
  rw [reportedFault, if_neg hop, if_neg hf]
  cases o with
  | appendBit =>
    rw [ite_of_iff_not (q := BitInRange (dataNat w)) (by simp [OperandOut, hnum, opField])]
    simp [Overflows, hnum, opField, instrOf, commandFault, State.appendFault]
  | appendBits =>
    rw [ite_of_iff_not (q := AppendCountInRange (cntNat w)) (by simp [OperandOut, hnum, opField]; omega)]
    simp [Overflows, hnum, opField, instrOf, commandFault, State.appendFault]
  | peek =>
    rw [ite_of_iff_not (q := PeekCountInRange (cntNat w)) (by simp [OperandOut, hnum, opField])]
    simp [Overflows, hnum, opField, instrOf, commandFault]
  | loadByte =>
    rw [ite_of_iff_not (q := ByteInRange (dataNat w)) (by simp [OperandOut, hnum, opField])]
    simp [Overflows, hnum, opField, instrOf, commandFault, State.appendFault]
  | _ => simp [OperandOut, Overflows, hnum, opField, instrOf, commandFault]

/-! ### A command answers its fault or completes -/

/-- What a running block answers where the fault reported is `f`: that fault, with only `STATUS` changed; or, for none, a running next state and
a response, after any bytes, that is no fault. -/
inductive Answers (s : State) : Option FaultCause → Host.Outcome State Fault Refusal → Prop
  | faults (c : FaultCause) : Answers s (some c) (.next (s.withFault c))
  | completes (t : State) (bs : List Byte) (r : Response) (hstatus : t.status = .running)
      (hevents : t.events = s.events ++ bs.map .byte ++ [.resp r]) (hr : ∀ c, r ≠ .fault c) : Answers s none (.next t)

namespace Answers

section
variable {s : State} (hs : s.status = .running)
include hs

theorem raiseFault (c : FaultCause) : Answers s (some c) (.next (s.raiseFault c)) :=
  State.raiseFault_eq_withFault hs c ▸ .faults c

theorem respond {r : Response} (hr : ∀ c, r ≠ .fault c) : Answers s none (.next (s.respond r)) :=
  .completes _ [] r hs (by simp) hr

theorem whileRunning {f : Option FaultCause} {k : State} (h : Answers s f (.next k)) : Answers s f (.next (s.whileRunning k)) :=
  (State.whileRunning_running hs k).symm ▸ h

theorem append (n : Nat) (v : BitVec 16) : Answers s (s.appendFault n) (.next (s.append n v)) := by
  by_cases hfull : s.config.capBits < s.count.toNat + n
  · rw [State.appendFault, if_pos hfull, State.append_of_full hfull]
    exact raiseFault hs _
  · have hfit : s.count.toNat + n ≤ s.config.capBits := Nat.not_lt.1 hfull
    rw [State.appendFault, if_neg hfull, State.append_of_fits hfit]
    exact .completes _ [] .ok (by simpa using hs) (by simp) (by simp)

/-- A command with a range check on its operand. -/
theorem ranged {p : Prop} [Decidable p] {f : Option FaultCause} {k : State} (hk : Answers s f (.next k)) :
    Answers s (if p then f else some .operandRange) (.next (if p then k else s.raiseFault .operandRange)) := by
  split
  · exact hk
  · exact raiseFault hs _

theorem exec (i : Instr) : Answers s (commandFault i s) (exec i s) := by
  cases i with
  | appendBit b => exact whileRunning hs (ranged hs (append hs 1 _))
  | appendBits v n => exact whileRunning hs (ranged hs (append hs n _))
  | peekBit o => exact whileRunning hs (respond hs (by simp))
  | peek o n => exact whileRunning hs (ranged hs (respond hs (by simp)))
  | serialize => exact whileRunning hs (.completes _ (stuff s.streamBytes) .ok (by simpa using hs) (by simp) (by simp))
  | clear => exact whileRunning hs (.completes _ [] .ok hs (by simp) (by simp))
  | loadByte b => exact whileRunning hs (ranged hs (append hs 8 _))
  | getCount => exact whileRunning hs (respond hs (by simp))
  | getStatus => exact respond hs (by simp)

theorem runWord (w : CommandWord) : Answers s (reportedFault w s) (runWord w s) := by
  cases hd : decode w with
  | error e =>
    rw [reportedFault_of_error hd, runWord_of_error hd]
    exact raiseFault hs _
  | ok i =>
    rw [reportedFault_of_ok hd, runWord_of_ok hd]
    exact exec hs i

end

end Answers

/-! ### Words on a faulted block (60_exceptions.md R126) -/

theorem exec_of_faulted {s : State} {c : FaultCause} (hs : s.status = .faulted c) {i : Instr} (hi : i ≠ .getStatus) :
    exec i s = .next (s.withResponse (.fault c)) := by
  obtain ⟨t, hx, ht⟩ := exec_cases i s
  rw [hx]
  cases ht with
  | absorbed first hf =>
    obtain rfl : first = c := by simpa [hf] using hs
    rfl
  | outOfRange hr => simp [hs] at hr
  | appends n v hr => simp [hs] at hr
  | reads bs r _ hr => simp [hs, hi] at hr
  | clears hr => simp [hs] at hr

theorem decode_getStatus_word : decode 0x9000000000000000#64 = .ok .getStatus := by decide

/-- Every word but the exact `GET_STATUS` word, whether it decodes or not, is answered `FAULT(CAUSE)`. -/
theorem runWord_of_faulted {s : State} {c : FaultCause} (hs : s.status = .faulted c) {w : CommandWord} (hw : w ≠ 0x9000000000000000#64) :
    runWord w s = .next (s.withResponse (.fault c)) := by
  cases hd : decode w with
  | error e =>
    rw [runWord_of_error hd, State.raiseFault_faulted hs]
    rfl
  | ok i =>
    have hi : i ≠ .getStatus := by
      rintro rfl
      exact hw ((encode_of_decode hd).symm.trans (encode_of_decode decode_getStatus_word))
    rw [runWord_of_ok hd, exec_of_faulted hs hi]

end Sys2Proof.Machine
end

section
/-! PROOF. Which fault a running block takes, the faulted state and the one way out of it, and the idle block (60_exceptions.md R121 to R126, R130 and R137). -/

namespace Sys2Proof.Machine

/-- Settles O33: a word that is no command takes the fault `decode` answers, and a command the fault of its operand or of its append. -/
theorem faultsAreTheFirstThatApplies : Obligations.FaultsAreTheFirstThatApplies := by
  intro s w rest hs hp
  have h : Answers { s with pending := rest } (reportedFault w s) (step s) := by
    rw [step_of_cons hp]
    exact Answers.runWord (s := { s with pending := rest }) hs w
  generalize reportedFault w s = f, step s = out at h ⊢
  cases h with
  | faults c => rfl
  | completes t bs r hstatus hevents hr => exact ⟨t, rfl, hstatus, bs, r, hevents, hr⟩

/-- Settles O36. -/
theorem commandsAnswerFaultWhileFaulted : Obligations.CommandsAnswerFaultWhileFaulted :=
  fun _ _ _ hs hi => exec_of_faulted hs hi

/-- Settles O34: the one word that decodes to `GET_STATUS` is its exact word. -/
theorem faultedBlockAbsorbs : Obligations.FaultedBlockAbsorbs := by
  intro s c w rest hs hp
  rw [step_of_cons hp]
  by_cases hw : w = 0x9000000000000000#64
  · subst hw
    rw [if_pos rfl]
    exact runWord_of_ok decode_getStatus_word _
  · rw [if_neg hw]
    exact runWord_of_faulted (s := { s with pending := rest }) hs hw

/-- Settles O35: an idle step and a command word keep the fault and the stream, so the move was a reset. -/
theorem onlyResetLeavesFaulted : Obligations.OnlyResetLeavesFaulted := by
  intro s t c hs hstep
  cases hp : s.pending with
  | nil =>
    rw [step_of_nil hp] at hstep
    cases hstep
    exact .inl ⟨hs, rfl, rfl⟩
  | cons m rest =>
    cases m with
    | reset =>
      rw [step_of_cons hp] at hstep
      cases hstep
      exact .inr ⟨rfl, rfl⟩
    | command w =>
      rw [faultedBlockAbsorbs s c w rest hs hp] at hstep
      cases hstep
      exact .inl ⟨hs, rfl, rfl⟩

/-- Settles O38. -/
theorem idleHoldsAllState : Obligations.IdleHoldsAllState := fun _ => step_of_nil

end Sys2Proof.Machine
end

section
/-! SUPPORT. The word of a well-formed command decodes to it (30_encoding.md R69), so a step on that word runs the command; and steps one after another. -/

namespace Sys2Proof

/-- The converse of `decode_ok` (30_encoding.md R72). -/
theorem decode_of_fields {w : CommandWord} {o : Opcode} (ho : opcodeOf (fieldsOf w).op = some o) (hr : (fieldsOf w).rsv = 0)
    (hu : unusedFieldSet o (fieldsOf w) = false) : decode w = .ok (instrOf o (fieldsOf w)) := by
  simp only [decode, ho, hr, hu, ne_eq, not_true_eq_false, Bool.false_eq_true, if_false]

theorem unusedFieldSet_fieldsFor (i : Instr) : unusedFieldSet (opcodeFor i) (fieldsFor i) = false := by
  cases i <;> rfl

/-- Operands that fit their fields are read back from them (30_encoding.md R66). -/
theorem instrOf_fieldsFor {i : Instr} (h : i.WellFormed) : instrOf (opcodeFor i) (fieldsFor i) = i := by
  obtain ⟨hcnt, hdata, hoff⟩ := (wellFormed_iff i).1 h
  have hcnt' : cntFor i % 2 ^ 5 = cntFor i := Nat.mod_eq_of_lt (Nat.lt_succ_of_le hcnt)
  have hdata' : dataFor i % 2 ^ 16 = dataFor i := Nat.mod_eq_of_lt (Nat.lt_succ_of_le hdata)
  have hoff' : offFor i % 2 ^ 32 = offFor i := Nat.mod_eq_of_lt (Nat.lt_succ_of_le hoff)
  cases i <;> simp only [opcodeFor, instrOf, fieldsFor, BitVec.toNat_ofNat, hcnt', hdata', hoff'] <;> rfl

theorem decode_encode {i : Instr} (h : i.WellFormed) : decode (encode i) = .ok i := by
  have hf : fieldsOf (encode i) = fieldsFor i := fieldsOf_encode i
  rw [decode_of_fields (o := opcodeFor i) (by rw [hf]; exact opcodeOf_opField _) (by rw [hf]; rfl)
    (by rw [hf]; exact unusedFieldSet_fieldsFor i), hf, instrOf_fieldsFor h]

end Sys2Proof

namespace Sys2Proof.Machine

/-- A step on the word of a well-formed command runs that command. -/
theorem step_of_encode {s : State} {i : Instr} {rest : List HostMove} (hi : i.WellFormed) (hp : s.pending = .command (encode i) :: rest) :
    step s = exec i { s with pending := rest } :=
  stepRunsDecodedCommand s _ rest i hp (decode_encode hi)

theorem State.memRead_withPending (s : State) (ms : List HostMove) (i n : Nat) :
    State.memRead { s with pending := ms } i n = s.memRead i n :=
  State.memRead_congr_range fun _ _ => State.bit_congr rfl rfl _

/-- The value a `PEEK` answers at the offset where `APPEND_BITS v, n` has just stored its bits. -/
theorem State.memRead_append_bitsValue {s : State} {v n : Nat} (hl : s.config.Legal) (hv : v ≤ 0xFFFF) (hn : n ≤ 16)
    (hfit : s.count.toNat + n ≤ s.config.capBits) :
    ((s.append n (bitsValue v)).memRead s.count.toNat n).setWidth 32 = BitVec.ofNat 32 (v >>> (16 - n)) := by
  rw [State.memRead_append hl hn hfit, ← bitsValue_ushiftRight_toNat hv, BitVec.ofNat_toNat]

theorem runSteps_succ {s t : State} (h : step s = .next t) (k : Nat) : runSteps (k + 1) s = runSteps k t := by
  simp only [runSteps, h]

end Sys2Proof.Machine
end

section
/-! PROOF. The reset event, a `PEEK` right after an append, and the configuration that no step writes (70_reset_and_hazards.md R140, R144 and R151). -/

namespace Sys2Proof.Machine

/-- A step on the word of an `APPEND_BITS` that fits: what it leaves, and what a `PEEK` at the offset of the append then answers. -/
theorem step_appendBits {s : State} {v n : Nat} {rest : List HostMove} (hl : s.config.Legal) (hs : s.status = .running) (hv : v ≤ 0xFFFF)
    (hlo : 1 ≤ n) (hhi : n ≤ 16) (hfit : s.count.toNat + n ≤ s.config.capBits)
    (hp : s.pending = .command (encode (.appendBits v n)) :: rest) :
    ∃ t, step s = .next t ∧ t.status = .running ∧ t.pending = rest ∧ t.events = s.events ++ [.resp .ok]
      ∧ (t.memRead s.count.toNat n).setWidth 32 = BitVec.ofNat 32 (v >>> (16 - n)) := by
  have hcnt : FitsCnt n := hhi.trans (by decide)
  have hwf : (Instr.appendBits v n).WellFormed := (wellFormed_iff _).2 ⟨hcnt, hv, Nat.zero_le _⟩
  let taken : State := { s with pending := rest }
  have ht := State.appended_append (s := taken) hl hfit (bitsValue v)
  exact ⟨_, (step_of_encode hwf hp).trans (exec_appendBits_of_running (s := taken) hs v ⟨hlo, hhi⟩), ht.status.trans hs, ht.pending, ht.events,
    State.memRead_append_bitsValue (s := taken) hl hv hhi hfit⟩

/-- A step on the word of a `PEEK`: the moves still waiting do not affect what it answers. -/
theorem step_peek {s : State} {i n : Nat} {rest : List HostMove} (hs : s.status = .running) (hi : i ≤ 0xFFFFFFFF) (hn : n ≤ 16)
    (hp : s.pending = .command (encode (.peek i n)) :: rest) :
    step s = .next (State.respond { s with pending := rest } (.value ((s.memRead i n).setWidth 32))) := by
  have hcnt : FitsCnt n := hn.trans (by decide)
  have hwf : (Instr.peek i n).WellFormed := (wellFormed_iff _).2 ⟨hcnt, Nat.zero_le _, hi⟩
  rw [step_of_encode hwf hp, exec_peek_of_running (s := { s with pending := rest }) hs i hn, State.memRead_withPending]

/-- Settles O17: the first word leaves the append, and the second reads it back at the offset where it stands. -/
theorem peekAfterAppendSeesBits : Obligations.PeekAfterAppendSeesBits := by
  intro s v n rest hl hs hv hlo hhi hfit hp
  obtain ⟨t, happend, ht, hpend, hev, hread⟩ := step_appendBits hl hs hv hlo hhi hfit hp
  have hpeek := step_peek ht (Nat.le_of_lt_succ s.count.isLt) hhi hpend
  refine ⟨_, (runSteps_succ happend 1).trans (runSteps_succ hpeek 0), rfl, ?_⟩
  rw [State.respond_events, hread, hev, List.append_assoc, List.singleton_append]

/-- Settles O39: the reset event leaves what `CLEAR` leaves on a running block, but for the response. -/
theorem resetEvent : Obligations.ResetEvent := fun _ _ hp =>
  ⟨_, step_of_cons hp, State.atom_of_mem_nil rfl, rfl, rfl, Status.word_running, rfl, rfl, rfl, _, exec_clear_of_running rfl, rfl⟩

theorem CommandEffect.config {i : Instr} {s t : State} (ht : CommandEffect i s t) : t.config = s.config := by
  cases ht with
  | absorbed => rfl
  | outOfRange => exact s.raiseFault_config _
  | appends n v => exact s.append_config n v
  | reads bs r => exact s.emitAll_config bs
  | clears => rfl

/-- Settles O42: by the four things a step can do. -/
theorem configurationNeverChanges : Obligations.ConfigurationNeverChanges := by
  intro s t hstep
  cases step_cases hstep with
  | idle => rfl
  | resets => rfl
  | rejects => exact State.raiseFault_config _ _
  | commands w rest i _ hp hd ht => exact ht.config

end Sys2Proof.Machine
end

section
/-! SUPPORT. The `mask` and `match` of a row of spec/opcode_table.json as words of fields, so that a word matches a row exactly when its fields are those `decode` asks for (30_encoding.md, opening, and R72). -/

namespace Sys2Proof

theorem opcodeFor_instrOf (o : Opcode) (f : Fields) : opcodeFor (instrOf o f) = o := by
  cases o <;> rfl

/-- A word decodes to a command of `o` exactly when its `OP` is that of `o` and every field that must be zero is (30_encoding.md R72). -/
theorem exists_decode_ok_iff (w : CommandWord) (o : Opcode) :
    (∃ i, decode w = .ok i ∧ opcodeFor i = o) ↔
      (fieldsOf w).op = opField o ∧ (fieldsOf w).rsv = 0 ∧ unusedFieldSet o (fieldsOf w) = false := by
  constructor
  · rintro ⟨i, hd, rfl⟩
    obtain ⟨o, ho, hr, hu, rfl⟩ := decode_ok hd
    rw [opcodeFor_instrOf]
    exact ⟨opField_of_opcodeOf ho, hr, hu⟩
  · rintro ⟨hop, hr, hu⟩
    have ho : opcodeOf (fieldsOf w).op = some o := by rw [hop, opcodeOf_opField]
    exact ⟨_, decode_of_fields ho hr hu, opcodeFor_instrOf o _⟩

/-! ### A row's `mask` and `match`, field by field -/

/-- A field's part of a row's mask: no bit of a field that the command reads, every bit of one that it does not. -/
def fieldMask (reads : Bool) (n : Nat) : BitVec n := if reads then 0 else BitVec.allOnes n

theorem and_fieldMask_eq_zero_iff {n : Nat} (reads : Bool) (x : BitVec n) :
    x &&& fieldMask reads n = 0 ↔ (!reads && x != 0) = false := by
  cases reads <;> simp [fieldMask]

theorem rowMask_eq_wordOf (o : Opcode) :
    rowMask o = wordOf { op := BitVec.allOnes 4, rsv := BitVec.allOnes 7, cnt := fieldMask (readsCnt o) 5,
                         data := fieldMask (readsData o) 16, off := fieldMask (readsOff o) 32 } := by
  cases o <;> decide

theorem rowMatch_eq_wordOf (o : Opcode) : rowMatch o = wordOf { op := opField o, rsv := 0, cnt := 0, data := 0, off := 0 } := by
  cases o <;> decide

theorem wordOf_injective : Function.Injective wordOf := Function.LeftInverse.injective fieldsOf_wordOf

/-- Masking a word masks each of its fields. -/
theorem wordOf_and (f g : Fields) :
    wordOf f &&& wordOf g = wordOf { op := f.op &&& g.op, rsv := f.rsv &&& g.rsv, cnt := f.cnt &&& g.cnt,
                                     data := f.data &&& g.data, off := f.off &&& g.off } := by
  simp only [wordOf, ← BitVec.and_append]

/-- A word matches a row exactly when its `OP` is the row's and every field that must be zero is (30_encoding.md, opening). -/
theorem matchesRow_iff (w : CommandWord) (o : Opcode) :
    MatchesRow w o ↔ (fieldsOf w).op = opField o ∧ (fieldsOf w).rsv = 0 ∧ unusedFieldSet o (fieldsOf w) = false := by
  rw [MatchesRow, ← wordOf_fieldsOf w, rowMask_eq_wordOf, rowMatch_eq_wordOf, wordOf_and, wordOf_injective.eq_iff, fieldsOf_wordOf]
  simp only [Fields.mk.injEq, BitVec.and_allOnes, and_fieldMask_eq_zero_iff, unusedFieldSet, Bool.or_eq_false_iff, and_assoc]

end Sys2Proof
end

section
/-! PROOF. Decoding against encoding and against the rows of spec/opcode_table.json (30_encoding.md). -/

namespace Sys2Proof.Machine

/-- Settles O3: the fields of the command's word name its opcode, leave every field it does not read at 0, and hold operands that fit. -/
theorem decodeInvertsEncode : Obligations.DecodeInvertsEncode := fun _ => decode_encode

/-- Settles O5: both sides ask the same of the word's fields. -/
theorem tableRowsMatchDecode : Obligations.TableRowsMatchDecode := fun w o =>
  (matchesRow_iff w o).trans (exists_decode_ok_iff w o).symm

end Sys2Proof.Machine
end
